-- ==== Sys2Proof/Word.lean ====
section
/-! DEFINITION. The element widths of the block: bytes and characters (00_scope.md R9,
20_memory.md R39). Every value is unsigned. -/

namespace Sys2Proof

/-- A byte `b[7:0]` (R9). -/
abbrev Byte := BitVec 8

/-- `CHAR_W`, the width of one character on the interface (R8, D3). -/
abbrev charW : Nat := 21

/-- A character `c[20:0]`: a code point, one element whatever its value (R9, R43). -/
abbrev Chr := BitVec 21

end Sys2Proof
end

