-- ==== Sys2Proof/Syntax.lean ====
section
/-! DEFINITION. What the block decodes, as syntax: the request and response messages (R57 to R60), the
error type (R108), the records that carry a message (R54), and `Instr`, one constructor per row of
the opcode table (R71). -/

namespace Sys2Proof

/-- An ENCODE request: a length field and the bytes (R57). The two may disagree; see `WellFormed`. -/
structure EncRequest where
  len  : Nat
  data : List Byte
  deriving DecidableEq, Repr, Inhabited

/-- A DECODE request: a length field and the characters (R59). -/
structure DecRequest where
  len  : Nat
  data : List Chr
  deriving DecidableEq, Repr, Inhabited

/-- An ENCODE response; it has no status field (R58). -/
structure EncResponse where
  len  : Nat
  data : List Chr
  deriving DecidableEq, Repr, Inhabited

/-- A DECODE response, one of three forms (R60). The reserved status `0b11` has no form (R68, U6). -/
inductive DecResponse where
  | ok (len : Nat) (data : List Byte)
  | invalidCharacter (pos : Nat) (char : Chr)
  | invalidLength (length : Nat)
  deriving DecidableEq, Repr, Inhabited

/-- The single error type with its two variants and their payloads (R108). -/
inductive DecError where
  | invalidCharacter (pos : Nat) (char : Chr)
  | invalidLength (length : Nat)
  deriving DecidableEq, Repr

/-- A fixed-width unsigned field of a message (R54): its width in bits and its value. -/
structure MsgField where
  width : Nat
  value : Nat
  deriving DecidableEq, Repr

/-- A message: fixed-width fields in the order of its table, then its elements (R54). -/
structure MsgRecord where
  fields : List MsgField
  elems  : List MsgField
  deriving DecidableEq, Repr

/-- What a decoder of the block is given (R71): a message with the selector of the channel it is
offered on (R55), or one character of a DECODE request. -/
inductive CodeWord where
  | command (opsel : MsgField) (msg : MsgRecord)
  | symbol (c : MsgField)
  deriving DecidableEq, Repr

/-- The opcode table, one constructor a row (R71). -/
inductive Instr where
  /-- ENCODE (R72), with its request. -/
  | encode (req : EncRequest)
  /-- DECODE (R85), with its request. -/
  | decode (req : DecRequest)
  /-- SYM_HIGH: the character U+0020, bit 1 (R87). -/
  | symHigh
  /-- SYM_LOW: the character U+200B, bit 0 (R87). -/
  | symLow
  /-- SYM_INVALID: an offender, no bit (R88). -/
  | symInvalid (c : Chr)
  deriving DecidableEq, Repr

end Sys2Proof
end

