-- ==== Sys2Proof/Config.lean ====
section
/-! DEFINITION. What a build of the block fixes (`POS_W` and the limits that follow from it, R8) and the free
values that stand for what reset leaves unspecified (R35, R127, U1, U2). -/

namespace Sys2Proof

/-- A build of the block. `POS_W` is OPEN in the spec (R8, D2): State carries it, no step changes it,
and statements quantify over it. -/
structure Config where
  posW : Nat
  deriving DecidableEq, Repr

namespace Config

/-- `POS_W >= 4` (R8). -/
def wf (c : Config) : Bool := decide (4 ≤ c.posW)

/-- Width of an ENCODE request's length field (R56, R57). -/
def encLenW (c : Config) : Nat := c.posW - 3

/-- `MAX_ENC_LEN = 2^(POS_W-3) - 1` (R8, R134). -/
def maxEncLen (c : Config) : Nat := 2 ^ (c.posW - 3) - 1

/-- `MAX_DEC_LEN = 2^POS_W - 1` (R8, R134). -/
def maxDecLen (c : Config) : Nat := 2 ^ c.posW - 1

/-- DESIGN CHOICE (log entry 1): the build `State.reset` is given, `POS_W = 16`, the width
95_test_vectors.md uses. -/
def build : Config := ⟨16⟩

/-! Free values (log entry 3): what the fields hold after a reset step. Applied to `State.draws`. -/

opaque freeEncReq  : Nat → EncRequest
opaque freeEncResp : Nat → EncResponse
opaque freeEI      : Nat → Nat
opaque freeEP      : Nat → Nat
opaque freeEOut    : Nat → List Chr
opaque freeDecReq  : Nat → DecRequest
opaque freeDecResp : Nat → DecResponse
opaque freeDStep   : Nat → Nat
opaque freeDK      : Nat → Nat
opaque freeDBits   : Nat → List Bool
opaque freeDG      : Nat → Nat
opaque freeDAcc    : Nat → Byte
opaque freeDOut    : Nat → List Byte

end Config
end Sys2Proof
end

