-- ==== Sys2Proof/Decode.lean ====
section
/-! DEFINITION. The alphabet and the symbol classes (R62 to R65), the decoder of requests and characters
(R55, R57, R59, R71), total and rejecting by name, and after it the encoder. -/

namespace Sys2Proof

/-! ## The alphabet -/

/-- HIGH, U+0020, bit 1 (R62). -/
def high : Chr := 0x000020#21

/-- LOW, U+200B, bit 0 (R62). -/
def low : Chr := 0x00200B#21

inductive SymClass where
  | high | low | invalid
  deriving DecidableEq, Repr

/-- A symbol row of the opcode table: a character belongs to it when `c & mask = pat`. -/
structure SymRow where
  cls  : SymClass
  pat  : Chr
  mask : Chr
  deriving DecidableEq, Repr

/-- The symbol rows, in the order of test (R64; the table's "priority"). -/
def symTable : List SymRow :=
  [⟨.high, 0x000020#21, 0x1FFFFF#21⟩, ⟨.low, 0x00200B#21, 0x1FFFFF#21⟩, ⟨.invalid, 0#21, 0#21⟩]

def SymRow.hits (r : SymRow) (c : Chr) : Bool := c &&& r.mask == r.pat

/-- The class of a character: the first row it belongs to (R64). -/
def classify (c : Chr) : SymClass :=
  match symTable.find? (·.hits c) with
  | some r => r.cls
  | none => .invalid

/-! ## Decoding -/

/-- Why the decoder rejects what it is given. -/
inductive Reject where
  /-- The selector is not a 1-bit field (R55). -/
  | selector
  /-- The fields before the elements are not the one length field of R57 or R59. -/
  | header
  /-- The length does not fit its field, so it exceeds the limit (R19, R134, U7). -/
  | lengthUnrepresentable
  /-- An element does not have the element width, or a value that fits it (R39). -/
  | element
  /-- The element count is not the length field's value (R133, U7). -/
  | framing
  /-- The character is not a 21-bit value (R43). -/
  | character
  deriving DecidableEq, Repr

/-- The one length field before the elements (R57, R59): of width `w`, its value below `2^w`. -/
def decodeLen (w : Nat) : List MsgField → Except Reject Nat
  | [f] =>
    if f.width ≠ w then .error .header
    else if f.value < 2 ^ w then .ok f.value
    else .error .lengthUnrepresentable
  | _ => .error .header

/-- The elements, each `w` bits wide (R39). -/
def decodeElems (w : Nat) : List MsgField → Except Reject (List (BitVec w))
  | [] => .ok []
  | f :: fs =>
    if f.width = w ∧ f.value < 2 ^ w then
      match decodeElems w fs with
      | .ok xs => .ok (BitVec.ofNat w f.value :: xs)
      | .error e => .error e
    else .error .element

/-- A request message with a length field of `lenW` bits and elements of `w` bits, framed (R133). -/
def decodeRequest (lenW w : Nat) (m : MsgRecord) : Except Reject (Nat × List (BitVec w)) :=
  match decodeLen lenW m.fields with
  | .error e => .error e
  | .ok n =>
    match decodeElems w m.elems with
    | .error e => .error e
    | .ok xs => if xs.length = n then .ok (n, xs) else .error .framing

/-- The row a character selects (R71, R87, R88). -/
def symInstr (c : Chr) : Instr :=
  match classify c with
  | .high => .symHigh
  | .low => .symLow
  | .invalid => .symInvalid c

/-- The decoder: the channel selects the operation (R55), the message gives its operands (R57, R59),
and a character is HIGH, LOW or an offender (R64). -/
def decode (c : Config) : CodeWord → Except Reject Instr
  | .command sel msg =>
    if sel.width ≠ 1 then .error .selector
    else if sel.value = 0 then
      match decodeRequest c.encLenW 8 msg with
      | .ok (n, bs) => .ok (.encode ⟨n, bs⟩)
      | .error e => .error e
    else if sel.value = 1 then
      match decodeRequest c.posW 21 msg with
      | .ok (n, cs) => .ok (.decode ⟨n, cs⟩)
      | .error e => .error e
    else .error .selector
  | .symbol f =>
    if f.width = 21 ∧ f.value < 2 ^ 21 then .ok (symInstr (BitVec.ofNat 21 f.value))
    else .error .character

/-! ## Encoding -/

def encodeElems {w : Nat} (xs : List (BitVec w)) : List MsgField :=
  xs.map fun x => ⟨w, x.toNat⟩

/-- The character of a symbol as the decoder is given it: one 21-bit element (R43). -/
def symbolWord (c : Chr) : CodeWord := .symbol ⟨21, c.toNat⟩

/-- The word of an instruction, from the tables of R55, R57, R59 and R62. -/
def encode (c : Config) : Instr → CodeWord
  | .encode r => .command ⟨1, 0⟩ ⟨[⟨c.encLenW, r.len⟩], encodeElems r.data⟩
  | .decode r => .command ⟨1, 1⟩ ⟨[⟨c.posW, r.len⟩], encodeElems r.data⟩
  | .symHigh => symbolWord high
  | .symLow => symbolWord low
  | .symInvalid ch => symbolWord ch

/-! ## The host's table words -/

/-- The code word of a row whose table bits are `w` (log entry 4): up to 8 bits are a command row,
its selector `w` and its other fields 0 (so `len = 0` and no elements); more are a symbol row, its
character `w`. -/
def tableWord (c : Config) (nbits w : Nat) : CodeWord :=
  if nbits ≤ 8 then .command ⟨1, w⟩ ⟨[⟨if w = 0 then c.encLenW else c.posW, 0⟩], []⟩
  else .symbol ⟨21, w⟩

/-- What the decoder reads from a row's bits. -/
def decodeTableWord (nbits w : Nat) : Option Instr :=
  match decode Config.build (tableWord Config.build nbits w) with
  | .ok i => some i
  | .error _ => none

end Sys2Proof
end

