-- ==== Sys2Proof/WellFormed.lean ====
section
/-! DEFINITION. Which requests may be offered (R19, R133, R134) and which instructions are well formed. -/

namespace Sys2Proof

/-- Request admission, ENCODE: the element count is the length field, within the limit (R19, R133). -/
def EncRequest.admitted (c : Config) (r : EncRequest) : Bool :=
  r.len == r.data.length && decide (r.len ≤ c.maxEncLen)

/-- Request admission, DECODE (R19, R133). -/
def DecRequest.admitted (c : Config) (r : DecRequest) : Bool :=
  r.len == r.data.length && decide (r.len ≤ c.maxDecLen)

/-- A command's request is admitted; an offender is no alphabet character (R64, R65). -/
def wellFormed (c : Config) : Instr → Bool
  | .encode r => r.admitted c
  | .decode r => r.admitted c
  | .symHigh => true
  | .symLow => true
  | .symInvalid ch => ch != high && ch != low

end Sys2Proof
end

