-- ==== Sys2Proof/Machine/State.lean ====
section
/-! DEFINITION. The state of the block and of the host that drives it, its faults and refusals, and the
state after reset. Plain data; no addressed memory exists (R36). -/

namespace Sys2Proof.Machine

/-- The two units (R15). -/
inductive UnitId where
  | enc | dec
  deriving DecidableEq, Repr

/-- `u.phase` (R16). -/
inductive Phase where
  | idle | busy | done
  deriving DecidableEq, Repr

/-- `d_step`: which of DECODE's three steps runs (R25). -/
inductive DStep where
  | validate | checklen | pack
  deriving DecidableEq, Repr

/-- ENC: its transaction state (R16) and reference datapath registers (R24). -/
structure EncUnit where
  phase : Phase
  req   : EncRequest
  resp  : EncResponse
  /-- `e_i`, `POS_W - 3` bits. -/
  eI    : Nat
  /-- `e_p`, 3 bits. -/
  eP    : Nat
  /-- `e_out`, capacity `8 * MAX_ENC_LEN`. -/
  eOut  : List Chr
  deriving DecidableEq, Repr

/-- DEC: its transaction state (R16) and reference datapath registers (R25). -/
structure DecUnit where
  phase : Phase
  req   : DecRequest
  resp  : DecResponse
  dStep : DStep
  /-- `d_k`, `POS_W` bits. -/
  dK    : Nat
  /-- `d_bits`, capacity `MAX_DEC_LEN`. -/
  dBits : List Bool
  /-- `d_g`, `POS_W - 3` bits. -/
  dG    : Nat
  /-- `d_acc`, 8 bits. -/
  dAcc  : Byte
  /-- `d_out`, capacity `MAX_DEC_LEN / 8`. -/
  dOut  : List Byte
  deriving DecidableEq, Repr

/-- One move of an agent: the host (R14), ENC or DEC. Steps interleave in any order (R23); the order of
a run is data (log entry 5). A move that is not enabled does nothing. No move withdraws an offer
(R18, log entry 16). -/
inductive Event where
  /-- The host offers a message on the channel its selector names (R17, R18, R55). -/
  | offer (w : CodeWord)
  /-- The unit's accept step (R17). -/
  | accept (u : UnitId)
  /-- The unit's atomic compute step (R20). -/
  | compute (u : UnitId)
  /-- One internal step of the unit's reference datapath (R83, R84, R104 to R106). -/
  | internal (u : UnitId)
  /-- The host takes the unit's response: the deliver step (R22). -/
  | take (u : UnitId)
  /-- The reset step (R127). -/
  | reset
  deriving DecidableEq, Repr

/-- Faults. The block itself has none beyond DECODE's two error responses (R112, R114); each of these
stops a run in a case the spec says never happens, so each is SAFE. -/
inductive Fault where
  /-- Raised by the datapath steps when `InRead(i)` names no element of the request, which R37 says is
  never performed. Safe. -/
  | inReadOutOfRange
  /-- Raised by the datapath steps when `OutWrite(j, v)` would leave a gap below `j`; R38 says elements
  are written in increasing order from 0. Safe. -/
  | outWriteOutOfOrder
  /-- Raised by the PACK step when a group reaches past `d_bits`, which R106 reads only after every
  character was validated. Safe. -/
  | bitOutOfRange
  /-- Raised by the host's reading of a response (`hostReadsDec`) whose status is the reserved `0b11`
  (R68, U6), which the block never produces. Safe. -/
  | reservedStatus
  deriving DecidableEq, Repr

/-- Refusals: what the model gives no meaning to. -/
inductive Refusal where
  /-- Raised by `exec` for an instruction with no meaning in the model yet. Safe. -/
  | notModelled (mnemonic : String)
  /-- Raised by a step when the decoder rejects a request: misframed, over the limit or not a record of
  its table (R19, R133, R134, U7). Safe. -/
  | rejected (why : Reject)
  /-- Raised by an offer that is a single character: a host offers only requests (R36, R55). Safe. -/
  | notARequest
  /-- Raised by the host's reading of a response whose fields, widths or element count are not those of
  R58 or R60; the values are not judged (log entry 17). Safe. -/
  | malformedResponse
  deriving DecidableEq, Repr

/-- The whole state: the two units, the two request channels, what the host has recorded, and the moves
still to come. -/
structure State where
  /-- The build (R8); no step changes it. -/
  cfg       : Config
  enc       : EncUnit
  dec       : DecUnit
  /-- ENC's request channel: offers not yet accepted, oldest first (R18, R36). -/
  encOffers : List EncRequest
  /-- DEC's request channel (R18, R36). -/
  decOffers : List DecRequest
  /-- What a run shows of ENC (R142): accepted requests, NEWEST FIRST, each with its response once taken. -/
  encLog    : List (EncRequest × Option EncResponse)
  /-- What a run shows of DEC (R142). -/
  decLog    : List (DecRequest × Option DecResponse)
  /-- The moves to come, next first; with none left the block goes on by itself (log entry 5). -/
  agenda    : List Event
  /-- The model's own counter of reset draws (log entry 3). -/
  draws     : Nat
  deriving DecidableEq, Repr

namespace State

def setEnc (s : State) (u : EncUnit) : State := { s with enc := u }
def setDec (s : State) (u : DecUnit) : State := { s with dec := u }
def setEncOffers (s : State) (l : List EncRequest) : State := { s with encOffers := l }
def setDecOffers (s : State) (l : List DecRequest) : State := { s with decOffers := l }
def setEncLog (s : State) (l : List (EncRequest × Option EncResponse)) : State := { s with encLog := l }
def setDecLog (s : State) (l : List (DecRequest × Option DecResponse)) : State := { s with decLog := l }
def setAgenda (s : State) (l : List Event) : State := { s with agenda := l }
def setDraws (s : State) (n : Nat) : State := { s with draws := n }

/-- After reset of a build (R35, R127 to R129): both units IDLE, nothing offered, nothing recorded, no
move to come. The fields R35 leaves unspecified are zero or empty (DESIGN CHOICE, log entry 2); no
step reads one before writing it (R27). -/
def resetFor (c : Config) : State where
  cfg := c
  enc := ⟨.idle, ⟨0, []⟩, ⟨0, []⟩, 0, 0, []⟩
  dec := ⟨.idle, ⟨0, []⟩, .ok 0 [], .validate, 0, [], 0, 0#8, []⟩
  encOffers := []
  decOffers := []
  encLog := []
  decLog := []
  agenda := []
  draws := 0

/-- The machine right after reset, for the build of log entry 1. -/
def reset : State := resetFor Config.build

end State
end Sys2Proof.Machine
end

