-- ==== Sys2Proof/Machine/Operands.lean ====
section
/-! DEFINITION. Operand forms: reading a request element (R37), writing a response element (R38), bit
extraction and byte assembly (R66, R67), and the symbol of a bit and the bit of a symbol (R63, R64). -/

namespace Sys2Proof.Machine

/-- `InRead(i)` of a request of length `len`: its element `i`, for `i < len` (R37). -/
def inRead {α : Type} (len : Nat) (data : List α) (i : Nat) : Option α :=
  if i < len then data[i]? else none

/-- `OutWrite(j, v)`: sets element `j` of a buffer that holds at least elements `0` to `j-1` (R38). -/
def outWrite {α : Type} (buf : List α) (j : Nat) (v : α) : Option (List α) :=
  if j ≤ buf.length then some (buf.take j ++ v :: buf.drop (j + 1)) else none

/-- `bit(b, p)`: the test `(b & (1 << p)) != 0` (R66). -/
def bit (b : Byte) (p : Nat) : Bool := b &&& (1#8 <<< p) != 0#8

/-- `sym`: HIGH for 1, LOW for 0 (R63). -/
def sym (b : Bool) : Chr := if b then high else low

/-- The bit of a character, none for an offender (R64, R87, R88). -/
def symBit (c : Chr) : Option Bool :=
  match classify c with
  | .high => some true
  | .low => some false
  | .invalid => none

/-- A bit as an 8-bit value, before it is shifted into place (R67). -/
def bitByte (b : Bool) : Byte := if b then 1#8 else 0#8

/-- OR-accumulation of bits `t, t+1, …` of a group, bit `t` at position `7 - t` (R67, R106). -/
def packFrom (acc : Byte) (t : Nat) : List Bool → Byte
  | [] => acc
  | b :: bs => packFrom (acc ||| (bitByte b <<< (7 - t))) (t + 1) bs

/-- `pack(t)`: a group's byte, accumulated from zero (R67). -/
def pack (group : List Bool) : Byte := packFrom 0#8 0 group

/-- Group `g` of the validated bits: bits `8g` to `8g + 7` (R92). -/
def groupAt (bits : List Bool) (g : Nat) : List Bool := (bits.drop (8 * g)).take 8

/-- The 8 characters of a byte, bit 7 first (R41, R72). -/
def encodeByte (b : Byte) : List Chr := [7, 6, 5, 4, 3, 2, 1, 0].map fun p => sym (bit b p)

/-- Left-to-right character validation from position `k`: the bits, or the first offender (R86 to R89). -/
def scan (k : Nat) : List Chr → Except DecError (List Bool)
  | [] => .ok []
  | c :: cs =>
    match symBit c with
    | none => .error (.invalidCharacter k c)
    | some b =>
      match scan (k + 1) cs with
      | .ok bs => .ok (b :: bs)
      | .error e => .error e

/-- The bytes of groups `0` to `n - 1`, in order (R93). -/
def packGroups (bits : List Bool) (n : Nat) : List Byte :=
  (List.range n).map fun g => pack (groupAt bits g)

/-- `DecError` as the response that reports it (R109, R110). -/
def errorResponse : DecError → DecResponse
  | .invalidCharacter pos ch => .invalidCharacter pos ch
  | .invalidLength n => .invalidLength n

end Sys2Proof.Machine
end

