-- ==== Sys2Proof/Machine/Flags.lean ====
section
/-! DEFINITION. The block has no flags (R31). What stands for one is the outcome a DECODE response carries in
its status field (R61), and the length test that decides it (R91, R105). -/

namespace Sys2Proof.Machine

/-- `m mod 8 = 0`, the test of the length step (R91, R105). -/
def lengthOk (m : Nat) : Bool := m % 8 == 0

/-- `status[1:0]` of a DECODE response (R61). -/
def statusOf : DecResponse → BitVec 2
  | .ok _ _ => 0b00#2
  | .invalidCharacter _ _ => 0b01#2
  | .invalidLength _ => 0b10#2

end Sys2Proof.Machine
end

