-- ==== Sys2Proof/Machine/Ops.lean ====
section
/-! DEFINITION. The shared operations on the units: offer and hold (R17, R18), accept (R17, R82, R103), respond
(R20, R21), raising a DECODE error (R109, R110, R114), deliver, which is also the only return from an
error (R22, R115), the reset step (R127), and what the host can see (R26). -/

namespace Sys2Proof.Machine

/-! ## Offers -/

/-- The host's offer stands on ENC's channel until it is accepted (R18). -/
def offerEnc (r : EncRequest) (s : State) : State := s.setEncOffers (s.encOffers ++ [r])

/-- The host's offer stands on DEC's channel until it is accepted (R18). -/
def offerDec (r : DecRequest) (s : State) : State := s.setDecOffers (s.decOffers ++ [r])

/-! ## Accept -/

/-- ENC takes a request: the copy, the phase (R17) and the datapath's initialisation (R82). The run
shows the accepted request from here on (R142). -/
def takeEncRequest (r : EncRequest) (s : State) : State :=
  (s.setEnc { s.enc with phase := .busy, req := r, eI := 0, eP := 7, eOut := [] }).setEncLog
    ((r, none) :: s.encLog)

/-- DEC takes a request (R17, R103). `d_acc` is not initialised. -/
def takeDecRequest (r : DecRequest) (s : State) : State :=
  (s.setDec { s.dec with
    phase := .busy, req := r, dStep := .validate, dK := 0, dBits := [], dG := 0, dOut := [] }).setDecLog
    ((r, none) :: s.decLog)

/-- ENC's accept step: the oldest offer, if ENC is IDLE; otherwise every offer is held (R17, R18). -/
def acceptEnc (s : State) : State :=
  match s.enc.phase, s.encOffers with
  | .idle, r :: rest => takeEncRequest r (s.setEncOffers rest)
  | _, _ => s

/-- DEC's accept step (R17, R18). -/
def acceptDec (s : State) : State :=
  match s.dec.phase, s.decOffers with
  | .idle, r :: rest => takeDecRequest r (s.setDecOffers rest)
  | _, _ => s

/-! ## Respond, and the two errors -/

/-- `respond(r)` on ENC: the response, and DONE (R20, R21). -/
def respondEnc (p : EncResponse) (s : State) : State :=
  s.setEnc { s.enc with resp := p, phase := .done }

/-- `respond(r)` on DEC (R20, R21). -/
def respondDec (p : DecResponse) (s : State) : State :=
  s.setDec { s.dec with resp := p, phase := .done }

/-- `raise`: an error is the error form of the response and nothing else (R109, R110, R114). -/
def raiseError (e : DecError) (s : State) : State := respondDec (errorResponse e) s

/-! ## Deliver: the host takes a response; after an error this is the whole return (R115) -/

/-- Records the response of the transaction accepted last, which has none yet (R142). -/
def recordResponse {α β : Type} (p : β) : List (α × Option β) → List (α × Option β)
  | (r, none) :: rest => (r, some p) :: rest
  | l => l

/-- ENC's deliver step: only when DONE (R22). -/
def deliverEnc (s : State) : State :=
  if s.enc.phase = .done then
    (s.setEnc { s.enc with phase := .idle }).setEncLog (recordResponse s.enc.resp s.encLog)
  else s

/-- DEC's deliver step: only when DONE, after an OK and after an error response alike (R22, R115). -/
def deliverDec (s : State) : State :=
  if s.dec.phase = .done then
    (s.setDec { s.dec with phase := .idle }).setDecLog (recordResponse s.dec.resp s.decLog)
  else s

/-! ## Reset -/

/-- A drawn value of `d_step`. -/
def dStepOf (n : Nat) : DStep :=
  if n % 3 = 0 then .validate else if n % 3 = 1 then .checklen else .pack

/-- ENC after a reset step: IDLE, every other field unspecified: a free value within the register's
width or the buffer's capacity (R24, R35, R127, log entry 3). -/
def encAfterReset (c : Config) (k : Nat) : EncUnit where
  phase := .idle
  req := Config.freeEncReq k
  resp := Config.freeEncResp k
  eI := Config.freeEI k % 2 ^ c.encLenW
  eP := Config.freeEP k % 8
  eOut := (Config.freeEOut k).take (8 * c.maxEncLen)

/-- DEC after a reset step (R25, R35, R127, log entry 3). -/
def decAfterReset (c : Config) (k : Nat) : DecUnit where
  phase := .idle
  req := Config.freeDecReq k
  resp := Config.freeDecResp k
  dStep := dStepOf (Config.freeDStep k)
  dK := Config.freeDK k % 2 ^ c.posW
  dBits := (Config.freeDBits k).take c.maxDecLen
  dG := Config.freeDG k % 2 ^ c.encLenW
  dAcc := Config.freeDAcc k
  dOut := (Config.freeDOut k).take (c.maxDecLen / 8)

/-- The reset step (R127): both units IDLE; a BUSY transaction is abandoned and a response not taken is
discarded, so neither is ever recorded; the host, its offers and its moves are untouched. That the host
goes on making every standing offer after a reset is the model's choice (log entry 16). -/
def resetStep (s : State) : State :=
  ((s.setEnc (encAfterReset s.cfg s.draws)).setDec (decAfterReset s.cfg s.draws)).setDraws (s.draws + 1)

/-! ## What the host can see of a unit (R26, R34) -/

/-- The responses of a record that the host has taken, in the order of their delivery. -/
def delivered {α β : Type} (log : List (α × Option β)) : List β := log.reverse.filterMap (·.2)

/-- What is observable of a unit: whether it accepts an offer, whether a response is ready, and the
responses it has delivered, each whole (R26, R40). A response not yet delivered shows as being ready and
in no other way (R34, R137). -/
structure View (β : Type) where
  accepts   : Bool
  ready     : Bool
  delivered : List β
  deriving DecidableEq, Repr

/-- The view of ENC (R26). -/
def viewEnc (s : State) : View EncResponse where
  accepts := s.enc.phase == .idle
  ready := s.enc.phase == .done
  delivered := delivered s.encLog

/-- The view of DEC (R26). -/
def viewDec (s : State) : View DecResponse where
  accepts := s.dec.phase == .idle
  ready := s.dec.phase == .done
  delivered := delivered s.decLog

end Sys2Proof.Machine
end

