-- ==== Sys2Proof/Machine/Decoder.lean ====
section
/-! DEFINITION. DECODE: the operation (R85) and its meaning as DEC's compute step (R20), and the CHECKLEN and
PACK steps of DEC's reference datapath (R105, R106). -/

namespace Sys2Proof.Machine

/-- `F_DEC`: character validation, then the length, then packing (R85, R86). -/
def decodeOp (r : DecRequest) : DecResponse :=
  match scan 0 r.data with
  | .error e => errorResponse e
  | .ok bits =>
    if lengthOk r.len then .ok (r.len / 8) (packGroups bits (r.len / 8))
    else errorResponse (.invalidLength r.len)

/-- DECODE (R85) as DEC's compute step (R20): DEC, BUSY with this request, responds with `F_DEC` of it.
A request DEC is not busy with has no compute step and changes nothing. -/
def execDecode (r : DecRequest) (s : State) : Host.Outcome State Fault Refusal :=
  if s.dec.phase = .busy ∧ s.dec.req = r then .next (respondDec (decodeOp r) s) else .next s

/-- VALIDATE when every character has passed (R104, `d_k = m`). -/
def decScanned (s : State) : State := s.setDec { s.dec with dStep := .checklen }

/-- The CHECKLEN step (R105). -/
def decCheckLen (s : State) : State :=
  if lengthOk s.dec.req.len then s.setDec { s.dec with dStep := .pack }
  else raiseError (.invalidLength s.dec.req.len) s

/-- The PACK step (R106): one group, or the OK response when none is left. -/
def decPack (s : State) : Host.Outcome State Fault Refusal :=
  if s.dec.dG = s.dec.req.len / 8 then
    .next (respondDec (.ok (s.dec.req.len / 8) s.dec.dOut) s)
  else if 8 * s.dec.dG + 7 < s.dec.dBits.length then
    match outWrite s.dec.dOut s.dec.dG (pack (groupAt s.dec.dBits s.dec.dG)) with
    | none => .fault .outWriteOutOfOrder
    | some out =>
      .next (s.setDec { s.dec with
        dAcc := pack (groupAt s.dec.dBits s.dec.dG), dOut := out, dG := s.dec.dG + 1 })
  else .fault .bitOutOfRange

end Sys2Proof.Machine
end

