-- ==== Sys2Proof/Machine/Encoder.lean ====
section
/-! DEFINITION. ENCODE: the operation (R72), its meaning as ENC's compute step (R20), and the steps of ENC's
reference datapath (R83, R84). -/

namespace Sys2Proof.Machine

/-- `F_ENC`: every byte in order, its 8 characters most significant bit first (R72). -/
def encodeOp (r : EncRequest) : EncResponse where
  len := 8 * r.len
  data := r.data.flatMap encodeByte

/-- ENCODE (R72) as ENC's compute step (R20): ENC, BUSY with this request, responds with `F_ENC` of it.
A request ENC is not busy with has no compute step and changes nothing. -/
def execEncode (r : EncRequest) (s : State) : Host.Outcome State Fault Refusal :=
  if s.enc.phase = .busy ∧ s.enc.req = r then .next (respondEnc (encodeOp r) s) else .next s

/-- The registers after one character: bit positions 7 down to 0, then the next byte (R83). -/
def encAdvance (u : EncUnit) (out : List Chr) : EncUnit :=
  if u.eP = 0 then { u with eP := 7, eI := u.eI + 1, eOut := out }
  else { u with eP := u.eP - 1, eOut := out }

/-- One step of ENC's reference datapath: a character while `e_i < n` (R83), completion at `e_i = n`
(R84). ENC has no such step unless it is BUSY. -/
def encInternal (s : State) : Host.Outcome State Fault Refusal :=
  if s.enc.phase = .busy then
    if s.enc.eI < s.enc.req.len then
      match inRead s.enc.req.len s.enc.req.data s.enc.eI with
      | none => .fault .inReadOutOfRange
      | some b =>
        match outWrite s.enc.eOut (8 * s.enc.eI + (7 - s.enc.eP)) (sym (bit b s.enc.eP)) with
        | none => .fault .outWriteOutOfOrder
        | some out => .next (s.setEnc (encAdvance s.enc out))
    else if s.enc.eI = s.enc.req.len then
      .next (respondEnc ⟨8 * s.enc.req.len, s.enc.eOut⟩ s)
    else .next s
  else .next s

end Sys2Proof.Machine
end

