-- ==== Sys2Proof/Machine/Symbol.lean ====
section
/-! DEFINITION. SYM_HIGH, SYM_LOW and SYM_INVALID: what a character does in the validation of a DECODE request
(R87, R88), as one VALIDATE step of DEC's reference datapath (R104). -/

namespace Sys2Proof.Machine

/-- DEC is validating and `c` is the next character, `InRead(d_k)` (R104). -/
def decSees (c : Chr) (s : State) : Bool :=
  s.dec.phase == .busy && s.dec.dStep == .validate &&
    inRead s.dec.req.len s.dec.req.data s.dec.dK == some c

/-- `d_bits.push(b); d_k <- d_k + 1` (R104). -/
def pushBit (b : Bool) (s : State) : State :=
  s.setDec { s.dec with dBits := s.dec.dBits ++ [b], dK := s.dec.dK + 1 }

/-- SYM_HIGH: bit 1 (R87, R104). It has a step only where DEC validates this character. -/
def execSymHigh (s : State) : Host.Outcome State Fault Refusal :=
  if decSees high s then .next (pushBit true s) else .next s

/-- SYM_LOW: bit 0 (R87, R104). It has a step only where DEC validates this character. -/
def execSymLow (s : State) : Host.Outcome State Fault Refusal :=
  if decSees low s then .next (pushBit false s) else .next s

/-- SYM_INVALID: `raise InvalidCharacter(d_k, c)` (R88, R104, R109). It has a step only where DEC
validates this offender. -/
def execSymInvalid (c : Chr) (s : State) : Host.Outcome State Fault Refusal :=
  if decSees c s && classify c == .invalid then .next (raiseError (.invalidCharacter s.dec.dK c) s)
  else .next s

end Sys2Proof.Machine
end

