-- ==== Sys2Proof/Machine/Dispatch.lean ====
section
/-! DEFINITION. The meaning of every instruction: one arm per row of the opcode table. -/

namespace Sys2Proof.Machine

def exec (i : Instr) (s : State) : Host.Outcome State Fault Refusal :=
  match i with
  | .encode r => Sys2Proof.Machine.execEncode r s
  | .decode r => Sys2Proof.Machine.execDecode r s
  | .symHigh => Sys2Proof.Machine.execSymHigh s
  | .symLow => Sys2Proof.Machine.execSymLow s
  | .symInvalid c => Sys2Proof.Machine.execSymInvalid c s

end Sys2Proof.Machine
end

