-- ==== Sys2Proof/Machine/Events.lean ====
section
/-! DEFINITION. What each move does (R17 to R23, R127): the host's offer goes through the decoder; a compute step
fetches the request the unit holds, decodes it and runs it; a VALIDATE step does the same with the
character `InRead(d_k)`. -/

namespace Sys2Proof.Machine

/-- Decode what was fetched and run it. -/
def runWord (w : CodeWord) (s : State) : Host.Outcome State Fault Refusal :=
  match decode s.cfg w with
  | .ok i => exec i s
  | .error e => .refused (.rejected e)

/-- The host's offer: a request that decodes stands on its channel (R18, R55); any other is refused at
the interface (R19, R133). -/
def hostOffer (w : CodeWord) (s : State) : Host.Outcome State Fault Refusal :=
  match decode s.cfg w with
  | .ok (.encode r) => .next (offerEnc r s)
  | .ok (.decode r) => .next (offerDec r s)
  | .ok _ => .refused .notARequest
  | .error e => .refused (.rejected e)

/-- ENC's compute step: the accepted request, fetched as the message it is, is run (R20, R55). -/
def computeEnc (s : State) : Host.Outcome State Fault Refusal :=
  if s.enc.phase = .busy then runWord (encode s.cfg (.encode s.enc.req)) s else .next s

/-- DEC's compute step (R20, R55). -/
def computeDec (s : State) : Host.Outcome State Fault Refusal :=
  if s.dec.phase = .busy then runWord (encode s.cfg (.decode s.dec.req)) s else .next s

/-- The VALIDATE step: past the last character it goes on to CHECKLEN; otherwise it fetches the next
character, decodes it and runs it (R104). -/
def decValidate (s : State) : Host.Outcome State Fault Refusal :=
  if s.dec.dK = s.dec.req.len then .next (decScanned s)
  else
    match inRead s.dec.req.len s.dec.req.data s.dec.dK with
    | none => .fault .inReadOutOfRange
    | some c => runWord (symbolWord c) s

/-- One step of DEC's reference datapath (R104 to R106). DEC has none unless it is BUSY. -/
def decInternal (s : State) : Host.Outcome State Fault Refusal :=
  if s.dec.phase = .busy then
    match s.dec.dStep with
    | .validate => decValidate s
    | .checklen => .next (decCheckLen s)
    | .pack => decPack s
  else .next s

/-- One move. -/
def runEvent (e : Event) (s : State) : Host.Outcome State Fault Refusal :=
  match e with
  | .offer w => hostOffer w s
  | .accept .enc => .next (acceptEnc s)
  | .accept .dec => .next (acceptDec s)
  | .compute .enc => computeEnc s
  | .compute .dec => computeDec s
  | .internal .enc => encInternal s
  | .internal .dec => decInternal s
  | .take .enc => .next (deliverEnc s)
  | .take .dec => .next (deliverDec s)
  | .reset => .next (resetStep s)

/-! ## Which move is next (R23) -/

/-- The block's own next move when the host makes none: a BUSY unit computes (R20, R23), an IDLE unit with an
offer standing accepts it (R17, R128). ENC before DEC, computing before accepting (log entry 5). -/
def ownMove (s : State) : Option Event :=
  if s.enc.phase = .busy then some (.compute .enc)
  else if s.dec.phase = .busy then some (.compute .dec)
  else if s.enc.phase = .idle ∧ s.encOffers ≠ [] then some (.accept .enc)
  else if s.dec.phase = .idle ∧ s.decOffers ≠ [] then some (.accept .dec)
  else none

/-- The next move and the moves after it: the agenda's while one is left, then the block's own. -/
def nextMove (s : State) : Option (Event × List Event) :=
  match s.agenda with
  | e :: rest => some (e, rest)
  | [] => (ownMove s).map fun e => (e, [])

/-! ## The host's table words -/

/-- Makes a row's word the one the next step fetches (log entry 4): a command's request is the one its
unit holds and its compute step is next; a character is the one DEC validates next. A word the
decoder rejects is what the host offers next, so that the step rejects it by the same name. -/
def placeWord (nbits w : Nat) (s : State) : State :=
  match decode s.cfg (tableWord s.cfg nbits w) with
  | .ok (.encode r) => (takeEncRequest r s).setAgenda (.compute .enc :: s.agenda)
  | .ok (.decode r) => (takeDecRequest r s).setAgenda (.compute .dec :: s.agenda)
  | .ok _ => (takeDecRequest ⟨1, [BitVec.ofNat 21 w]⟩ s).setAgenda (.internal .dec :: s.agenda)
  | .error _ => s.setAgenda (.offer (tableWord s.cfg nbits w) :: s.agenda)

end Sys2Proof.Machine
end

