-- ==== Sys2Proof/Machine/Step.lean ====
section
/-! DEFINITION. One step: the next move of the run (R23). -/

namespace Sys2Proof.Machine

/-- The next move is taken and made: the agenda's next, or with none left the block's own (R23). Where there
is neither, every unit is DONE or IDLE with nothing offered, and nothing happens until the host acts
(R126, R132). -/
def step (s : State) : Host.Outcome State Fault Refusal :=
  match nextMove s with
  | none => .next s
  | some (e, rest) => runEvent e (s.setAgenda rest)

/-- The state whose next step fetches and runs the row's word (log entry 4). -/
def State.withFetchWord (s : State) (nbits w : Nat) : State := placeWord nbits w s

end Sys2Proof.Machine
end

