-- ==== Sys2Proof/Machine/HostCommand.lean ====
section
/-! DEFINITION. The host's commands in the spec's textual form (R70), as the moves they stand for. The spec's form
leaves the units' own steps (accept, compute) unwritten; here they stand where a run needs them (log
entry 6). -/

namespace Sys2Proof.Machine

/-- A line of a host program (R70). -/
inductive HostCommand where
  | encodeBytes (bs : List Byte)
  | decodeChars (cs : List Chr)
  | take (u : UnitId)
  | reset
  deriving DecidableEq, Repr

/-- The request `ENCODE [b0, …]` offers: `len` is the number of bytes (R70). -/
def bytesRequest (bs : List Byte) : EncRequest := ⟨bs.length, bs⟩

/-- The request `DECODE [s0, …]` offers (R70). -/
def charsRequest (cs : List Chr) : DecRequest := ⟨cs.length, cs⟩

/-- The moves of one command: an offer and the accept step that takes it if the unit is IDLE and holds
it otherwise; the taking of a response, after the accept and compute steps that make it ready, each of
which does nothing where it is not enabled; or a reset. -/
def HostCommand.moves (c : Config) : HostCommand → List Event
  | .encodeBytes bs => [.offer (encode c (.encode (bytesRequest bs))), .accept .enc]
  | .decodeChars cs => [.offer (encode c (.decode (charsRequest cs))), .accept .dec]
  | .take u => [.accept u, .compute u, .take u]
  | .reset => [.reset]

/-- `ROUNDTRIP [b0, …]` = `ENCODE [b0, …]; TAKE ENC => r; DECODE r; TAKE DEC` (R70). The response `r` is
what ENC gives (R72). -/
def roundTrip (bs : List Byte) : List HostCommand :=
  [.encodeBytes bs, .take .enc, .decodeChars (encodeOp (bytesRequest bs)).data, .take .dec]

/-- A host program as an agenda. -/
def programMoves (c : Config) (p : List HostCommand) : List Event := p.flatMap (·.moves c)

end Sys2Proof.Machine
end

