-- ==== Sys2Proof/Machine/Messages.lean ====
section
/-! DEFINITION. Response messages as records (R54, R58, R60, R61), and the host's reading of them, which treats the
reserved status as a fault (R68, U6). -/

namespace Sys2Proof.Machine

/-- An ENCODE response on the response channel (R58). -/
def encResponseRecord (c : Config) (p : EncResponse) : MsgRecord :=
  ⟨[⟨c.posW, p.len⟩], encodeElems p.data⟩

/-- A DECODE response on the response channel: `status`, then the fields of its form (R60, R61). -/
def decResponseRecord (c : Config) (p : DecResponse) : MsgRecord :=
  match p with
  | .ok len data => ⟨[⟨2, (statusOf p).toNat⟩, ⟨c.posW, len⟩], encodeElems data⟩
  | .invalidCharacter pos ch => ⟨[⟨2, (statusOf p).toNat⟩, ⟨c.posW, pos⟩, ⟨21, ch.toNat⟩], []⟩
  | .invalidLength n => ⟨[⟨2, (statusOf p).toNat⟩, ⟨c.posW, n⟩], []⟩

/-- A field of the width the table gives it, with a value that fits. -/
def fieldFits (w : Nat) (f : MsgField) : Bool := f.width == w && decide (f.value < 2 ^ w)

/-- The host reads an ENCODE response by the fields and widths of R58. A record the block never produces (a
length that is no multiple of 8, a character outside the alphabet) is read as any other, which is the
model's choice (log entry 17). -/
def hostReadsEnc (c : Config) (m : MsgRecord) : Host.Outcome EncResponse Fault Refusal :=
  match decodeRequest c.posW 21 m with
  | .ok (n, cs) => .next ⟨n, cs⟩
  | .error _ => .refused .malformedResponse

/-- The fields after an OK status: the length, and the bytes (R60). -/
def hostReadsOk (c : Config) (fields elems : List MsgField) : Host.Outcome DecResponse Fault Refusal :=
  match decodeRequest c.posW 8 ⟨fields, elems⟩ with
  | .ok (n, bs) => .next (.ok n bs)
  | .error _ => .refused .malformedResponse

/-- The fields after an INVALID_CHARACTER status: `pos` and `char`, no elements (R60). -/
def hostReadsBadChar (c : Config) (fields elems : List MsgField) :
    Host.Outcome DecResponse Fault Refusal :=
  match fields, elems with
  | [p, ch], [] =>
    if fieldFits c.posW p && fieldFits 21 ch then
      .next (.invalidCharacter p.value (BitVec.ofNat 21 ch.value))
    else .refused .malformedResponse
  | _, _ => .refused .malformedResponse

/-- The fields after an INVALID_LENGTH status: `length`, no elements (R60). -/
def hostReadsBadLength (c : Config) (fields elems : List MsgField) :
    Host.Outcome DecResponse Fault Refusal :=
  match fields, elems with
  | [n], [] => if fieldFits c.posW n then .next (.invalidLength n.value) else .refused .malformedResponse
  | _, _ => .refused .malformedResponse

/-- The host reads a DECODE response: the status selects the form; `0b11` is a fault of the host (R60,
R61, R68, U6). A form with values the block never gives it is read as any other (log entry 17). -/
def hostReadsDec (c : Config) (m : MsgRecord) : Host.Outcome DecResponse Fault Refusal :=
  match m.fields with
  | [] => .refused .malformedResponse
  | st :: rest =>
    if st.width ≠ 2 then .refused .malformedResponse
    else if st.value = 0 then hostReadsOk c rest m.elems
    else if st.value = 1 then hostReadsBadChar c rest m.elems
    else if st.value = 2 then hostReadsBadLength c rest m.elems
    else if st.value = 3 then .fault .reservedStatus
    else .refused .malformedResponse

end Sys2Proof.Machine
end

