-- ==== Sys2Proof/Safety.lean ====
section
/-! DEFINITION. The terms claims are stated in: the invariant of every run, the host's duties, and sameness of two
states up to what no response depends on. -/

namespace Sys2Proof.Machine

/-- An alphabet character: HIGH or LOW (R13). -/
abbrev alphabetic (c : Chr) : Prop := c = high ∨ c = low

/-- The bits of characters known to be alphabetic (R87). -/
def bitsOf (cs : List Chr) : List Bool := cs.map fun c => c == high

/-! ## The invariant -/

/-- ENC's registers stay within their widths and its buffer within its capacity (R24). -/
def encWidths (c : Config) (u : EncUnit) : Prop :=
  u.eI < 2 ^ c.encLenW ∧ u.eP < 8 ∧ u.eOut.length ≤ 8 * c.maxEncLen

/-- DEC's registers stay within their widths and its buffers within their capacities (R25). -/
def decWidths (c : Config) (u : DecUnit) : Prop :=
  u.dK < 2 ^ c.posW ∧ u.dBits.length ≤ c.maxDecLen ∧ u.dG < 2 ^ c.encLenW ∧
    u.dOut.length ≤ c.maxDecLen / 8

/-- ENC's datapath has emitted exactly the characters before the one it stands at (R83, R84). -/
def encOnTrack (u : EncUnit) : Prop :=
  u.eI ≤ u.req.len ∧ (u.eI = u.req.len → u.eP = 7) ∧
    u.eOut = (encodeOp u.req).data.take (8 * u.eI + (7 - u.eP))

/-- DEC's datapath has validated the characters before `d_k`, and packed the groups before `d_g` only
after the length passed (R104 to R106). -/
def decOnTrack (u : DecUnit) : Prop :=
  (∀ c ∈ u.req.data.take u.dK, alphabetic c) ∧ u.dBits = bitsOf (u.req.data.take u.dK) ∧
    match u.dStep with
    | .validate => u.dK ≤ u.req.len ∧ u.dG = 0 ∧ u.dOut = []
    | .checklen => u.dK = u.req.len ∧ u.dG = 0 ∧ u.dOut = []
    | .pack => u.dK = u.req.len ∧ u.req.len % 8 = 0 ∧ u.dG ≤ u.req.len / 8 ∧
        u.dOut = packGroups u.dBits u.dG

/-- What ENC's phase says: BUSY with an admitted request, its datapath on track; DONE with the response
of the request accepted last (R16, R20). -/
def encPhaseOk (s : State) : Prop :=
  match s.enc.phase with
  | .idle => True
  | .busy => s.enc.req.admitted s.cfg = true ∧ s.encLog.head? = some (s.enc.req, none) ∧ encOnTrack s.enc
  | .done => ∃ r, s.encLog.head? = some (r, none) ∧ s.enc.resp = encodeOp r

/-- What DEC's phase says (R16, R20). -/
def decPhaseOk (s : State) : Prop :=
  match s.dec.phase with
  | .idle => True
  | .busy => s.dec.req.admitted s.cfg = true ∧ s.decLog.head? = some (s.dec.req, none) ∧ decOnTrack s.dec
  | .done => ∃ r, s.decLog.head? = some (r, none) ∧ s.dec.resp = decodeOp r

/-- Every request recorded was admitted, and every response recorded is the operation of its request
(R20, R26, R142). -/
def encLogOk (s : State) : Prop :=
  ∀ e ∈ s.encLog, e.1.admitted s.cfg = true ∧ ∀ p, e.2 = some p → p = encodeOp e.1

def decLogOk (s : State) : Prop :=
  ∀ e ∈ s.decLog, e.1.admitted s.cfg = true ∧ ∀ p, e.2 = some p → p = decodeOp e.1

/-- What stands on a request channel is admitted (R19). -/
def offersOk (s : State) : Prop :=
  (∀ r ∈ s.encOffers, r.admitted s.cfg = true) ∧ (∀ r ∈ s.decOffers, r.admitted s.cfg = true)

/-- The invariant of every run. -/
structure Inv (s : State) : Prop where
  build     : s.cfg.wf = true
  encWide   : encWidths s.cfg s.enc
  decWide   : decWidths s.cfg s.dec
  offers    : offersOk s
  encPhase  : encPhaseOk s
  decPhase  : decPhaseOk s
  encRecord : encLogOk s
  decRecord : decLogOk s

/-! ## Runs -/

/-- `k` steps, stopping at a fault or a refusal. -/
def stepN : Nat → State → Host.Outcome State Fault Refusal
  | 0, s => .next s
  | k + 1, s =>
    match step s with
    | .next t => stepN k t
    | .fault f => .fault f
    | .refused r => .refused r

/-! ## The end of a run, and what it shows (R142) -/

/-- Every request offered has been accepted and its response taken, or was abandoned by a reset. -/
def served (s : State) : Prop :=
  s.enc.phase = .idle ∧ s.encOffers = [] ∧ s.dec.phase = .idle ∧ s.decOffers = []

/-- The run of `k` steps from `s` ends at `t`: everything offered is served and the host makes no further
offer, or a reset was the last event. -/
def RunEnds (s : State) (k : Nat) (t : State) : Prop :=
  stepN k s = .next t ∧
    ((served t ∧ ∀ w, Event.offer w ∉ t.agenda) ∨
      ∃ (j : Nat) (u : State), k = j + 1 ∧ stepN j s = .next u ∧ u.agenda = [.reset])

/-- What a run shows of ENC: the accepted requests in acceptance order, each with its response if it had one. -/
def shownEnc (s : State) : List (EncRequest × Option EncResponse) := s.encLog.reverse

/-- What a run shows of DEC. -/
def shownDec (s : State) : List (DecRequest × Option DecResponse) := s.decLog.reverse

/-- Every accepted request has had its response taken. -/
def allAnswered (s : State) : Prop := (∀ e ∈ s.encLog, e.2 ≠ none) ∧ (∀ e ∈ s.decLog, e.2 ≠ none)

/-- The ENCODE requests among the moves to come, in order. -/
def encRequestsIn (c : Config) (moves : List Event) : List EncRequest :=
  moves.filterMap fun e =>
    match e with
    | .offer w =>
      match decode c w with
      | .ok (.encode r) => some r
      | _ => none
    | _ => none

/-- The DECODE requests among the moves to come, in order. -/
def decRequestsIn (c : Config) (moves : List Event) : List DecRequest :=
  moves.filterMap fun e =>
    match e with
    | .offer w =>
      match decode c w with
      | .ok (.decode r) => some r
      | _ => none
    | _ => none

/-! ## Infinite executions and weak fairness (R23, R141) -/

/-- An infinite execution: the state at each time and the move made there. A move that is not enabled stands for
a time at which nothing happens. -/
def Execution (state : Nat → State) (move : Nat → Event) : Prop :=
  ∀ n, runEvent (move n) (state n) = .next (state (n + 1))

/-- Weak fairness of a kind of move: if it is enabled at every time from some time on, it is made. -/
def WeaklyFair (enabled : State → Prop) (made : Event → Prop) (state : Nat → State) (move : Nat → Event) : Prop :=
  ∀ n, (∀ m, n ≤ m → enabled (state m)) → ∃ m, n ≤ m ∧ made (move m)

def phaseOf (s : State) : UnitId → Phase
  | .enc => s.enc.phase
  | .dec => s.dec.phase

/-- An offer stands on the unit's channel. -/
def hasOffer (s : State) : UnitId → Prop
  | .enc => s.encOffers ≠ []
  | .dec => s.decOffers ≠ []

/-- Weak fairness of the units' compute steps: a unit that stays BUSY computes, at once (R20) or by a step of its
reference datapath. -/
def UnitsFair (state : Nat → State) (move : Nat → Event) : Prop :=
  ∀ u, WeaklyFair (fun s => phaseOf s u = .busy) (fun e => e = .compute u ∨ e = .internal u) state move

/-- Weak fairness of the host's own steps: an offer that stands before an IDLE unit is accepted, and a response that
stays ready is taken (R132). -/
def HostFair (state : Nat → State) (move : Nat → Event) : Prop :=
  ∀ u, WeaklyFair (fun s => phaseOf s u = .idle ∧ hasOffer s u) (fun e => e = .accept u) state move ∧
    WeaklyFair (fun s => phaseOf s u = .done) (fun e => e = .take u) state move

/-! ## The host's duties (D21) -/

/-- A message the host may offer: it decodes to a request (R19, R133). -/
def offerable (c : Config) (w : CodeWord) : Bool :=
  match decode c w with
  | .ok (.encode _) => true
  | .ok (.decode _) => true
  | _ => false

/-- A host that offers only well-framed requests within the limits (R133, R134). -/
def HostKeepsFraming (s : State) : Prop := ∀ w, Event.offer w ∈ s.agenda → offerable s.cfg w = true

/-! ## Sameness up to what no response depends on (R26 to R28, R35) -/

/-- ENC is the same but for the fields that mean nothing in its phase (U1, U2). -/
def encSame (u v : EncUnit) : Prop :=
  u.phase = v.phase ∧
    (u.phase = .busy → u.req = v.req ∧ u.eI = v.eI ∧ u.eP = v.eP ∧ u.eOut = v.eOut) ∧
    (u.phase = .done → u.resp = v.resp)

/-- DEC is the same but for the fields that mean nothing in its phase; `d_acc` never counts, since every
use of it writes it first (R106). -/
def decSame (u v : DecUnit) : Prop :=
  u.phase = v.phase ∧
    (u.phase = .busy → u.req = v.req ∧ u.dStep = v.dStep ∧ u.dK = v.dK ∧ u.dBits = v.dBits ∧
      u.dG = v.dG ∧ u.dOut = v.dOut) ∧
    (u.phase = .done → u.resp = v.resp)

/-- Two states differ only in unspecified fields and in the reset draws to come. -/
def SameButUnspecified (s t : State) : Prop :=
  s.cfg = t.cfg ∧ encSame s.enc t.enc ∧ decSame s.dec t.dec ∧ s.encOffers = t.encOffers ∧
    s.decOffers = t.decOffers ∧ s.encLog = t.encLog ∧ s.decLog = t.decLog ∧ s.agenda = t.agenda

/-- Outcomes that agree: the same kind, the same name, or next states that are the same but for
unspecified fields. -/
def outcomeSame : Host.Outcome State Fault Refusal → Host.Outcome State Fault Refusal → Prop
  | .next s, .next t => SameButUnspecified s t
  | .fault a, .fault b => a = b
  | .refused a, .refused b => a = b
  | _, _ => False

end Sys2Proof.Machine
end

