-- ==== Sys2Proof/Certificates/Slice0/Obligations.lean ====
section
/-! DEFINITION. The statements about the block, one `Obligations.<Name>` each. -/

section
open Sys2Proof Sys2Proof.Machine

/-! ## Encodings -/

/-- Words written out decode to what they stand for. From the spec's encodings: the two 21-bit alphabet values and one
offender (R62, R65), the ENC request of P5 (R57) and a DECODE request of two characters (R59). By the model's choice of
log entry 4: that a table row of more than 8 bits is the character it holds, and one of at most 8 bits a command's
selector (R55) with its other fields 0, so `len = 0` and no elements. -/
def Obligations.WrittenOutWordsDecode : Prop :=
  decodeTableWord 24 0b000000000000000100000 = some .symHigh ∧
  decodeTableWord 24 0b000000010000000001011 = some .symLow ∧
  decodeTableWord 24 0b000000000000001000001 = some (.symInvalid 0x41#21) ∧
  decodeTableWord 8 0b0 = some (.encode ⟨0, []⟩) ∧
  decodeTableWord 8 0b1 = some (.decode ⟨0, []⟩) ∧
  Sys2Proof.decode ⟨4⟩ (.command ⟨1, 0b0⟩ ⟨[⟨1, 0b1⟩], [⟨8, 0xC3⟩]⟩) = .ok (.encode ⟨1, [0xC3#8]⟩) ∧
  Sys2Proof.decode ⟨16⟩ (.command ⟨1, 0b1⟩ ⟨[⟨16, 0x0002⟩], [⟨21, 0x00200B⟩, ⟨21, 0x000020⟩]⟩) =
    .ok (.decode ⟨2, [0x00200B#21, 0x000020#21]⟩)

/-- Decoding the encoding of a well-formed instruction gives it back, for every build and every operand. -/
def Obligations.DecodeAfterEncode : Prop :=
  ∀ (c : Config) (i : Instr), wellFormed c i = true → Sys2Proof.decode c (encode c i) = .ok i

/-- Whatever the decoder accepts is the encoding of what it answers, and that is well formed: each word has
one meaning and nothing ill formed is accepted. -/
def Obligations.EncodeAfterDecode : Prop :=
  ∀ (c : Config) (w : CodeWord) (i : Instr), Sys2Proof.decode c w = .ok i → wellFormed c i = true ∧ encode c i = w

/-- R64: a character is HIGH, LOW or an offender by exact equality of all 21 bits, in that order of test, with bit
1, bit 0 and none. -/
def Obligations.CharactersClassifiedByEquality : Prop :=
  ∀ c : Chr,
    classify c = (if c = 0x000020#21 then .high else if c = 0x00200B#21 then .low else .invalid) ∧
    symBit c = (if c = 0x000020#21 then some true else if c = 0x00200B#21 then some false else none)

/-- R63: the symbol of a bit. -/
def Obligations.SymbolOfBit : Prop := sym true = 0x000020#21 ∧ sym false = 0x00200B#21

/-- R66: `bit(b, p)` is 1 exactly when the masked byte is not zero, and it is the bit itself. -/
def Obligations.BitExtraction : Prop :=
  ∀ (b : Byte) (p : Nat), p ≤ 7 → (bit b p = true ↔ b &&& (1#8 <<< p) ≠ 0#8) ∧ bit b p = b.getLsbD p

/-- R67: a group's byte is the OR of its bits shifted into place, so bit `7 - k` of it is bit `k` of the group. -/
def Obligations.ByteAssembly : Prop :=
  (∀ t0 t1 t2 t3 t4 t5 t6 t7 : Bool,
    pack [t0, t1, t2, t3, t4, t5, t6, t7] =
      (bitByte t0 <<< 7) ||| (bitByte t1 <<< 6) ||| (bitByte t2 <<< 5) ||| (bitByte t3 <<< 4) |||
      (bitByte t4 <<< 3) ||| (bitByte t5 <<< 2) ||| (bitByte t6 <<< 1) ||| bitByte t7) ∧
  ∀ t : List Bool, t.length = 8 → ∀ k, k < 8 → (pack t).getLsbD (7 - k) = t.getD k false

/-- A request offered on a channel stands there exactly when it is framed and within its limit; otherwise the step that
offers it refuses it (R55, R133, R134). The model's own: a channel holds several offers, the new one last (log entry 8),
and the refusals' names, with `lengthUnrepresentable` before `framing` where both hold (log entry 12). -/
def Obligations.OffersAreAdmittedOrRefused : Prop :=
  (∀ (s : State) (r : EncRequest) (rest : List Event),
    s.agenda = .offer (encode s.cfg (.encode r)) :: rest →
    step s =
      if ¬ r.len ≤ 2 ^ (s.cfg.posW - 3) - 1 then .refused (.rejected .lengthUnrepresentable)
      else if r.data.length ≠ r.len then .refused (.rejected .framing)
      else .next { s with agenda := rest, encOffers := s.encOffers ++ [r] }) ∧
  (∀ (s : State) (r : DecRequest) (rest : List Event),
    s.agenda = .offer (encode s.cfg (.decode r)) :: rest →
    step s =
      if ¬ r.len ≤ 2 ^ s.cfg.posW - 1 then .refused (.rejected .lengthUnrepresentable)
      else if r.data.length ≠ r.len then .refused (.rejected .framing)
      else .next { s with agenda := rest, decOffers := s.decOffers ++ [r] })

/-! ## ENCODE -/

/-- R72: ENCODE, on the unit that is BUSY with its request, answers the state that differs only in ENC's response
and phase: every byte in order, bits 7 down to 0, HIGH if set and LOW if not; `8n` characters, a count that fits
`POS_W` bits for every admitted request. -/
def Obligations.EncodeCompletes : Prop :=
  ∀ (s : State) (r : EncRequest), s.enc.phase = .busy → s.enc.req = r →
    exec (.encode r) s = .next { s with enc := { s.enc with
      phase := .done
      resp := ⟨8 * r.len, r.data.flatMap fun b => [7, 6, 5, 4, 3, 2, 1, 0].map fun p =>
        if b &&& (1#8 <<< p) ≠ 0#8 then 0x000020#21 else 0x00200B#21⟩ } } ∧
    ∀ c : Config, c.wf = true → r.admitted c = true → 8 * r.len ≤ 2 ^ c.posW - 1

/-- R73: element `8i + (7 - p)` of the response is the symbol of bit `p` of byte `i`; equivalently element `j` is
HIGH exactly when bit `7 - (j mod 8)` of byte `j div 8` is 1. -/
def Obligations.EncodeElementRule : Prop :=
  ∀ (c : Config) (s : State) (r : EncRequest), s.enc.phase = .busy → s.enc.req = r → r.admitted c = true →
    ∃ t, exec (.encode r) s = .next t ∧ t.enc.phase = .done ∧
      (∀ (i p : Nat) (b : Byte), i < r.len → p ≤ 7 → r.data[i]? = some b →
        t.enc.resp.data[8 * i + (7 - p)]? = some (sym (bit b p))) ∧
      (∀ (j : Nat) (b : Byte), j < 8 * r.len → r.data[j / 8]? = some b →
        (t.enc.resp.data[j]? = some 0x000020#21 ↔ b.getLsbD (7 - j % 8) = true))

/-- R74, R77: an ENCODE response has exactly `8n` characters, each HIGH or LOW. -/
def Obligations.EncodeLengthAndAlphabet : Prop :=
  ∀ (c : Config) (s : State) (r : EncRequest), s.enc.phase = .busy → s.enc.req = r → r.admitted c = true →
    ∃ t, exec (.encode r) s = .next t ∧ t.enc.phase = .done ∧ t.enc.resp.len = 8 * r.len ∧
      t.enc.resp.data.length = 8 * r.len ∧
      ∀ ch ∈ t.enc.resp.data, ch = 0x000020#21 ∨ ch = 0x00200B#21

/-- R75: the empty ENCODE request, offered to an IDLE ENC with nothing else offered, is accepted and gives the
response with `len = 0` and no elements. -/
def Obligations.EmptyEncodeRequest : Prop :=
  ∀ (s : State) (rest : List Event), s.enc.phase = .idle → s.encOffers = [] →
    s.agenda = [.offer (encode s.cfg (.encode ⟨0, []⟩)), .accept .enc, .compute .enc] ++ rest →
    (∃ t, stepN 2 s = .next t ∧ t.enc.phase = .busy ∧ t.enc.req = ⟨0, []⟩) ∧
    ∃ t, stepN 3 s = .next t ∧ t.enc.phase = .done ∧ t.enc.resp = ⟨0, []⟩ ∧ t.agenda = rest

/-- R78: ENCODE of a concatenation is the concatenation, and ENCODE is given by a fixed table of 8-character groups,
one per byte value. -/
def Obligations.EncodeConcatenates : Prop :=
  (∀ (c : Config) (a b : List Byte), a.length + b.length ≤ c.maxEncLen →
    (encodeOp (bytesRequest (a ++ b))).data =
      (encodeOp (bytesRequest a)).data ++ (encodeOp (bytesRequest b)).data) ∧
  ∃ table : Byte → List Chr, (∀ x, (table x).length = 8 ∧ (encodeOp (bytesRequest [x])).data = table x) ∧
    ∀ r : EncRequest, (encodeOp r).data = r.data.flatMap table

/-- R80: distinct ENCODE requests give distinct responses: of different lengths where the requests have different
lengths, and different at some element `8i + 7 - p` where they have the same length and differ in byte `i`. -/
def Obligations.EncodeInjective : Prop :=
  ∀ (c : Config) (r₁ r₂ : EncRequest), r₁.admitted c = true → r₂.admitted c = true →
    (r₁ ≠ r₂ → encodeOp r₁ ≠ encodeOp r₂) ∧
    (r₁.len ≠ r₂.len → (encodeOp r₁).data.length ≠ (encodeOp r₂).data.length) ∧
    ∀ i, r₁.len = r₂.len → r₁.data[i]? ≠ r₂.data[i]? →
      ∃ p, p ≤ 7 ∧ (encodeOp r₁).data[8 * i + 7 - p]? ≠ (encodeOp r₂).data[8 * i + 7 - p]?

/-- R83: one step of ENC's reference datapath while `e_i < n`. -/
def Obligations.EncDatapathStep : Prop :=
  ∀ (s : State) (b : Byte) (rest : List Event), s.agenda = .internal .enc :: rest →
    s.enc.phase = .busy → s.enc.req.admitted s.cfg = true → s.enc.eI < s.enc.req.len → s.enc.eP ≤ 7 →
    s.enc.req.data[s.enc.eI]? = some b → s.enc.eOut.length = 8 * s.enc.eI + (7 - s.enc.eP) →
    s.enc.eI + 1 < 2 ^ (s.cfg.posW - 3) ∧
    step s = .next { s with
      agenda := rest
      enc := { s.enc with
        eOut := s.enc.eOut ++ [if b &&& (1#8 <<< s.enc.eP) ≠ 0#8 then 0x000020#21 else 0x00200B#21]
        eP := if s.enc.eP = 0 then 7 else s.enc.eP - 1
        eI := if s.enc.eP = 0 then s.enc.eI + 1 else s.enc.eI } }

/-- R84: at `e_i = n` the internal step responds with what the buffer holds; and from the initialisation exactly `8n`
internal steps fill the buffer with ENCODE's characters, ENC still BUSY, and the next one completes with ENCODE's
response; for `n = 0` it is the first. -/
def Obligations.EncDatapathGivesEncode : Prop :=
  (∀ (s : State) (rest : List Event), s.agenda = .internal .enc :: rest → s.enc.phase = .busy →
    s.enc.eI = s.enc.req.len →
    step s = .next { s with agenda := rest, enc := { s.enc with
      phase := .done, resp := ⟨8 * s.enc.req.len, s.enc.eOut⟩ } }) ∧
  ∀ (s : State) (r : EncRequest) (rest : List Event), r.admitted s.cfg = true → s.enc.phase = .busy →
    s.enc.req = r → s.enc.eI = 0 → s.enc.eP = 7 → s.enc.eOut = [] →
    s.agenda = List.replicate (8 * r.len + 1) (.internal .enc) ++ rest →
    (∀ k, k ≤ 8 * r.len → ∃ t, stepN k s = .next t ∧ t.enc.phase = .busy) ∧
    (∃ t, stepN (8 * r.len) s = .next t ∧ t.enc.eI = r.len ∧ t.enc.eOut = (encodeOp r).data) ∧
    ∃ t, stepN (8 * r.len + 1) s = .next t ∧ t.enc.phase = .done ∧ t.enc.resp = encodeOp r ∧
      t = { s with enc := t.enc, agenda := rest }

/-! ## DECODE -/

/-- R92, R93, R94: a request of alphabet characters, a multiple of 8 of them, answers OK with `m / 8` bytes: byte `g`
is the packed group `g`, and bit `7 - (k mod 8)` of byte `k div 8` is the bit of character `k`. -/
def Obligations.DecodePacksGroups : Prop :=
  ∀ (c : Config) (s : State) (r : DecRequest), s.dec.phase = .busy → s.dec.req = r → r.admitted c = true →
    (∀ ch ∈ r.data, ch = high ∨ ch = low) → r.len % 8 = 0 →
    ∃ bytes : List Byte,
      exec (.decode r) s = .next { s with dec := { s.dec with
        phase := .done, resp := .ok (r.len / 8) bytes } } ∧
      bytes.length = r.len / 8 ∧
      (∀ g, g < r.len / 8 →
        bytes[g]? = some (pack (((r.data.drop (8 * g)).take 8).map fun ch => ch == high))) ∧
      ∀ (k : Nat) (ch : Chr) (b : Byte), r.data[k]? = some ch → bytes[k / 8]? = some b →
        b.getLsbD (7 - k % 8) = (ch == high)

/-- R89, R90, R97: a request with an offender answers INVALID_CHARACTER with the position and the value of the first
one, whatever follows it and whatever the length; the position fits its field. -/
def Obligations.DecodeReportsFirstOffender : Prop :=
  ∀ (c : Config) (s : State) (r : DecRequest) (pos : Nat) (ch : Chr),
    s.dec.phase = .busy → s.dec.req = r → r.admitted c = true →
    r.data[pos]? = some ch → ch ≠ high → ch ≠ low →
    (∀ (j : Nat) (d : Chr), j < pos → r.data[j]? = some d → d = high ∨ d = low) →
    pos < 2 ^ c.posW ∧
    exec (.decode r) s = .next { s with dec := { s.dec with
      phase := .done, resp := .invalidCharacter pos ch } }

/-- R91: alphabet characters only, and not a multiple of 8 of them: INVALID_LENGTH with the count. -/
def Obligations.DecodeReportsLength : Prop :=
  ∀ (s : State) (r : DecRequest), s.dec.phase = .busy → s.dec.req = r →
    (∀ ch ∈ r.data, ch = high ∨ ch = low) → r.len % 8 ≠ 0 →
    exec (.decode r) s = .next { s with dec := { s.dec with
      phase := .done, resp := .invalidLength r.len } }

/-- R96, R61: which outcome DECODE has, and with which status code; the reserved code is never produced. -/
def Obligations.DecodeOutcomes : Prop :=
  ∀ (s : State) (r : DecRequest), s.dec.phase = .busy → s.dec.req = r →
    ∃ t, exec (.decode r) s = .next t ∧ t.dec.phase = .done ∧
      ((∃ n bytes, t.dec.resp = .ok n bytes) ↔ (∀ ch ∈ r.data, ch = high ∨ ch = low) ∧ r.len % 8 = 0) ∧
      ((∃ pos ch, t.dec.resp = .invalidCharacter pos ch) ↔ ∃ ch ∈ r.data, ch ≠ high ∧ ch ≠ low) ∧
      ((∃ n, t.dec.resp = .invalidLength n) ↔ (∀ ch ∈ r.data, ch = high ∨ ch = low) ∧ r.len % 8 ≠ 0) ∧
      (statusOf t.dec.resp = 0b00#2 ↔ (∀ ch ∈ r.data, ch = high ∨ ch = low) ∧ r.len % 8 = 0) ∧
      (statusOf t.dec.resp = 0b01#2 ↔ ∃ ch ∈ r.data, ch ≠ high ∧ ch ≠ low) ∧
      (statusOf t.dec.resp = 0b10#2 ↔ (∀ ch ∈ r.data, ch = high ∨ ch = low) ∧ r.len % 8 ≠ 0) ∧
      statusOf t.dec.resp ≠ 0b11#2

/-- R95: the empty DECODE request answers OK with no bytes. -/
def Obligations.EmptyDecodeRequest : Prop :=
  ∀ s : State, s.dec.phase = .busy → s.dec.req = ⟨0, []⟩ →
    exec (.decode ⟨0, []⟩) s = .next { s with dec := { s.dec with phase := .done, resp := .ok 0 [] } }

/-- R101: DECODE of the characters ENCODE gives for `b` answers OK with `b`, and they form a DECODE request. -/
def Obligations.RoundTripFromBytes : Prop :=
  ∀ (c : Config) (s t : State) (b : List Byte), c.wf = true → b.length ≤ c.maxEncLen →
    s.enc.phase = .busy → s.enc.req = ⟨b.length, b⟩ →
    t.dec.phase = .busy → t.dec.req = ⟨8 * b.length, (encodeOp ⟨b.length, b⟩).data⟩ →
    (∃ s', exec (.encode ⟨b.length, b⟩) s = .next s' ∧ s'.enc.resp.data = t.dec.req.data) ∧
    t.dec.req.admitted c = true ∧
    ∃ t', exec (.decode t.dec.req) t = .next t' ∧ t'.dec.phase = .done ∧ t'.dec.resp = .ok b.length b

/-- R102: ENCODE of the bytes DECODE gives for a text of HIGH and LOW, its length a multiple of 8, gives the text. -/
def Obligations.RoundTripFromText : Prop :=
  ∀ (c : Config) (s : State) (text : List Chr), (∀ ch ∈ text, ch = high ∨ ch = low) →
    text.length % 8 = 0 → text.length / 8 ≤ c.maxEncLen →
    s.dec.phase = .busy → s.dec.req = ⟨text.length, text⟩ →
    ∃ t bytes, exec (.decode ⟨text.length, text⟩) s = .next t ∧
      t.dec.resp = .ok (text.length / 8) bytes ∧ (⟨text.length / 8, bytes⟩ : EncRequest).admitted c = true ∧
      ∀ u : State, u.enc.phase = .busy → u.enc.req = ⟨text.length / 8, bytes⟩ →
        ∃ u', exec (.encode ⟨text.length / 8, bytes⟩) u = .next u' ∧ u'.enc.phase = .done ∧
          u'.enc.resp = ⟨text.length, text⟩

/-- R104: one VALIDATE step of DEC's reference datapath: past the last character it goes on to CHECKLEN; HIGH and LOW
push their bit; an offender ends the transaction. -/
def Obligations.ValidateStep : Prop :=
  ∀ (s : State) (rest : List Event), s.agenda = .internal .dec :: rest → s.dec.phase = .busy →
    s.dec.dStep = .validate →
    (s.dec.dK = s.dec.req.len →
      step s = .next { s with agenda := rest, dec := { s.dec with dStep := .checklen } }) ∧
    ∀ ch, s.dec.dK < s.dec.req.len → s.dec.req.data[s.dec.dK]? = some ch →
      (s.dec.req.admitted s.cfg = true → s.dec.dK + 1 < 2 ^ s.cfg.posW) ∧
      step s = .next { s with agenda := rest, dec :=
        if ch = 0x000020#21 then { s.dec with dBits := s.dec.dBits ++ [true], dK := s.dec.dK + 1 }
        else if ch = 0x00200B#21 then { s.dec with dBits := s.dec.dBits ++ [false], dK := s.dec.dK + 1 }
        else { s.dec with phase := .done, resp := .invalidCharacter s.dec.dK ch } }

/-- R105: the CHECKLEN step. -/
def Obligations.CheckLengthStep : Prop :=
  ∀ (s : State) (rest : List Event), s.agenda = .internal .dec :: rest → s.dec.phase = .busy →
    s.dec.dStep = .checklen →
    step s = .next { s with agenda := rest, dec :=
      if s.dec.req.len % 8 ≠ 0 then { s.dec with phase := .done, resp := .invalidLength s.dec.req.len }
      else { s.dec with dStep := .pack } }

/-- R106: the PACK step: the OK response when no group is left, else one group, OR-accumulated from zero. -/
def Obligations.PackStep : Prop :=
  ∀ (s : State) (rest : List Event), s.agenda = .internal .dec :: rest → s.dec.phase = .busy →
    s.dec.dStep = .pack →
    (s.dec.dG = s.dec.req.len / 8 →
      step s = .next { s with agenda := rest, dec := { s.dec with
        phase := .done, resp := .ok (s.dec.req.len / 8) s.dec.dOut } }) ∧
    ∀ t0 t1 t2 t3 t4 t5 t6 t7 : Bool, s.dec.dG < s.dec.req.len / 8 → s.dec.dOut.length = s.dec.dG →
      (s.dec.dBits.drop (8 * s.dec.dG)).take 8 = [t0, t1, t2, t3, t4, t5, t6, t7] →
      ∃ acc : Byte,
        acc = 0#8 ||| (bitByte t0 <<< 7) ||| (bitByte t1 <<< 6) ||| (bitByte t2 <<< 5) ||| (bitByte t3 <<< 4) |||
          (bitByte t4 <<< 3) ||| (bitByte t5 <<< 2) ||| (bitByte t6 <<< 1) ||| (bitByte t7 <<< 0) ∧
        step s = .next { s with agenda := rest, dec := { s.dec with
          dAcc := acc, dOut := s.dec.dOut ++ [acc], dG := s.dec.dG + 1 } }

/-- From the initialisation (R103) DEC's reference datapath ends, after at most `m + 1 + 1 + m/8 + 1` steps and BUSY
until then, with exactly DECODE's response, nothing outside DEC changed. -/
def Obligations.DecDatapathGivesDecode : Prop :=
  ∀ (s : State) (r : DecRequest) (rest : List Event), r.admitted s.cfg = true → s.dec.phase = .busy →
    s.dec.req = r → s.dec.dStep = .validate → s.dec.dK = 0 → s.dec.dBits = [] → s.dec.dG = 0 →
    s.dec.dOut = [] → s.agenda = List.replicate (r.len + 1 + 1 + r.len / 8 + 1) (.internal .dec) ++ rest →
    ∃ n, n < r.len + 1 + 1 + r.len / 8 + 1 ∧
      (∀ k, k ≤ n → ∃ t, stepN k s = .next t ∧ t.dec.phase = .busy) ∧
      ∃ t, stepN (n + 1) s = .next t ∧ t.dec.phase = .done ∧ t.dec.resp = decodeOp r ∧
        t = { s with dec := t.dec, agenda := t.agenda }

/-! ## The symbols -/

/-- SYM_HIGH and SYM_LOW, where DEC validates that character, push their bit and change nothing else (R104, as the meaning
of a symbol row: log entry 11); and validation gives one bit per character, bit `k` that of character `k` (R87). -/
def Obligations.AlphabetSymbolsComplete : Prop :=
  (∀ s : State, s.dec.phase = .busy → s.dec.dStep = .validate → s.dec.dK < s.dec.req.len →
    (s.dec.req.data[s.dec.dK]? = some 0x000020#21 →
      exec .symHigh s = .next { s with dec := { s.dec with
        dBits := s.dec.dBits ++ [true], dK := s.dec.dK + 1 } }) ∧
    (s.dec.req.data[s.dec.dK]? = some 0x00200B#21 →
      exec .symLow s = .next { s with dec := { s.dec with
        dBits := s.dec.dBits ++ [false], dK := s.dec.dK + 1 } })) ∧
  ∀ cs : List Chr, (∀ c ∈ cs, c = 0x000020#21 ∨ c = 0x00200B#21) →
    ∃ bits : List Bool, scan 0 cs = .ok bits ∧ bits.length = cs.length ∧
      ∀ (k : Nat) (c : Chr), cs[k]? = some c →
        (c = 0x000020#21 → bits[k]? = some true) ∧ (c = 0x00200B#21 → bits[k]? = some false)

/-- SYM_INVALID (R88, R109; as a VALIDATE step, R104: log entry 11), where DEC validates that offender, gives no bit
and ends the transaction with INVALID_CHARACTER, status `0b01`, the position `d_k` and the character as received. -/
def Obligations.InvalidSymbolRaises : Prop :=
  ∀ (s : State) (ch : Chr), s.dec.phase = .busy → s.dec.dStep = .validate → s.dec.dK < s.dec.req.len →
    s.dec.req.data[s.dec.dK]? = some ch → ch ≠ 0x000020#21 → ch ≠ 0x00200B#21 →
    exec (.symInvalid ch) s = .next { s with dec := { s.dec with
      phase := .done, resp := .invalidCharacter s.dec.dK ch } } ∧
    statusOf (.invalidCharacter s.dec.dK ch) = 0b01#2

/-! ## Every instruction -/

/-- The frame of every instruction: ENCODE writes at most ENC's phase and response, DECODE and SYM_INVALID at most
DEC's phase and response, SYM_HIGH and SYM_LOW at most `d_bits` and `d_k` (R104, as the meaning of a symbol row: log
entry 11). That a unit's other fields keep what they held where they mean nothing is the model's reading (log entry 9). -/
def Obligations.InstructionFrames : Prop :=
  ∀ (i : Instr) (s t : State), exec i s = .next t →
    match i with
    | .encode _ => t = { s with enc := { s.enc with phase := t.enc.phase, resp := t.enc.resp } }
    | .decode _ => t = { s with dec := { s.dec with phase := t.dec.phase, resp := t.dec.resp } }
    | .symHigh => t = { s with dec := { s.dec with dBits := t.dec.dBits, dK := t.dec.dK } }
    | .symLow => t = { s with dec := { s.dec with dBits := t.dec.dBits, dK := t.dec.dK } }
    | .symInvalid _ => t = { s with dec := { s.dec with phase := t.dec.phase, resp := t.dec.resp } }

/-- No instruction stops the machine; and at a unit that is not at the instruction's step (it is not BUSY with that
request, or is not validating that character) nothing happens, which is the model's reading (log entry 7; for symbols also entry
11). -/
def Obligations.InstructionsNeverStop : Prop :=
  (∀ (i : Instr) (s : State), ∃ t, exec i s = .next t) ∧
  (∀ (s : State) (r : EncRequest), ¬ (s.enc.phase = .busy ∧ s.enc.req = r) → exec (.encode r) s = .next s) ∧
  (∀ (s : State) (r : DecRequest), ¬ (s.dec.phase = .busy ∧ s.dec.req = r) → exec (.decode r) s = .next s) ∧
  ∀ (s : State) (i : Instr) (ch : Chr),
    (i = .symHigh ∧ ch = high) ∨ (i = .symLow ∧ ch = low) ∨ i = .symInvalid ch →
    ¬ (s.dec.phase = .busy ∧ s.dec.dStep = .validate ∧ s.dec.dK < s.dec.req.len ∧
      s.dec.req.data[s.dec.dK]? = some ch) →
    exec i s = .next s

/-- A step whose move is a compute step runs the instruction the unit's request decodes to; a step whose move is a
VALIDATE step with a character left runs the row that character decodes to (log entry 11). The move is taken off the
agenda. -/
def Obligations.StepRunsDecodedInstruction : Prop :=
  ∀ (s : State) (rest : List Event) (i : Instr),
    (s.agenda = .compute .enc :: rest → s.enc.phase = .busy →
      Sys2Proof.decode s.cfg (encode s.cfg (.encode s.enc.req)) = .ok i →
      step s = exec i { s with agenda := rest }) ∧
    (s.agenda = .compute .dec :: rest → s.dec.phase = .busy →
      Sys2Proof.decode s.cfg (encode s.cfg (.decode s.dec.req)) = .ok i →
      step s = exec i { s with agenda := rest }) ∧
    (∀ ch, s.agenda = .internal .dec :: rest → s.dec.phase = .busy → s.dec.dStep = .validate →
      s.dec.dK < s.dec.req.len → s.dec.req.data[s.dec.dK]? = some ch →
      Sys2Proof.decode s.cfg (.symbol ⟨21, ch.toNat⟩) = .ok i →
      step s = exec i { s with agenda := rest })

/-! ## Transactions -/

/-- The accept step of an IDLE unit copies the oldest offer, goes BUSY and initialises the datapath. Two clauses are the
model's and no rule of the spec: that the oldest offer is taken (its choice, log entry 8), and that `u.resp` and `d_acc`,
which mean nothing then, keep what they held (its reading, log entry 9). -/
def Obligations.AcceptStep : Prop :=
  (∀ (s : State) (rest : List Event) (r : EncRequest) (more : List EncRequest),
    s.agenda = .accept .enc :: rest → s.enc.phase = .idle → s.encOffers = r :: more →
    step s = .next { s with
      agenda := rest, encOffers := more, encLog := (r, none) :: s.encLog
      enc := { s.enc with phase := .busy, req := r, eI := 0, eP := 7, eOut := [] } }) ∧
  (∀ (s : State) (rest : List Event) (r : DecRequest) (more : List DecRequest),
    s.agenda = .accept .dec :: rest → s.dec.phase = .idle → s.decOffers = r :: more →
    step s = .next { s with
      agenda := rest, decOffers := more, decLog := (r, none) :: s.decLog
      dec := { s.dec with
        phase := .busy, req := r, dStep := .validate, dK := 0, dBits := [], dG := 0, dOut := [] } })

/-- An accept step at a unit that is not IDLE does nothing: every offer is held, neither accepted nor dropped. -/
def Obligations.OffersAreHeld : Prop :=
  ∀ (s : State) (rest : List Event),
    (s.agenda = .accept .enc :: rest → s.enc.phase ≠ .idle → step s = .next { s with agenda := rest }) ∧
    (s.agenda = .accept .dec :: rest → s.dec.phase ≠ .idle → step s = .next { s with agenda := rest })

/-- The compute step of a BUSY unit holding an admitted request always happens: it writes the response, which depends
on the request alone, and makes the unit DONE. That `u.req` and the datapath registers keep what they held is the model's
reading (log entry 9). -/
def Obligations.BusyUnitsCompute : Prop :=
  (∀ (s : State) (rest : List Event), s.agenda = .compute .enc :: rest → s.enc.phase = .busy →
    s.enc.req.admitted s.cfg = true →
    step s = .next { s with agenda := rest, enc := { s.enc with
      phase := .done, resp := encodeOp s.enc.req } }) ∧
  (∀ (s : State) (rest : List Event), s.agenda = .compute .dec :: rest → s.dec.phase = .busy →
    s.dec.req.admitted s.cfg = true →
    step s = .next { s with agenda := rest, dec := { s.dec with
      phase := .done, resp := decodeOp s.dec.req } })

/-- The deliver step hands over the whole response of a DONE unit, once, and makes it IDLE; a unit that is BUSY or IDLE
delivers nothing. That `u.req` and `u.resp`, which mean nothing in IDLE, and the datapath registers keep what they held is
the model's reading and no rule of the spec (log entry 9). -/
def Obligations.DeliverStep : Prop :=
  (∀ (s : State) (rest : List Event), s.agenda = .take .enc :: rest →
    (s.enc.phase ≠ .done → step s = .next { s with agenda := rest }) ∧
    ∀ (r : EncRequest) (older : List (EncRequest × Option EncResponse)),
      s.enc.phase = .done → s.encLog = (r, none) :: older →
      step s = .next { s with
        agenda := rest, enc := { s.enc with phase := .idle }
        encLog := (r, some s.enc.resp) :: older }) ∧
  (∀ (s : State) (rest : List Event), s.agenda = .take .dec :: rest →
    (s.dec.phase ≠ .done → step s = .next { s with agenda := rest }) ∧
    ∀ (r : DecRequest) (older : List (DecRequest × Option DecResponse)),
      s.dec.phase = .done → s.decLog = (r, none) :: older →
      step s = .next { s with
        agenda := rest, dec := { s.dec with phase := .idle }
        decLog := (r, some s.dec.resp) :: older })

/-- The reset step makes both units IDLE from any state, records no response, and leaves the host's offers and moves as
they were; that the host goes on making every standing offer is the model's choice (log entry 16). -/
def Obligations.ResetStep : Prop :=
  ∀ (s : State) (rest : List Event), s.agenda = .reset :: rest →
    ∃ t, step s = .next t ∧ t.enc.phase = .idle ∧ t.dec.phase = .idle ∧ t.cfg = s.cfg ∧
      t.encLog = s.encLog ∧ t.decLog = s.decLog ∧ t.encOffers = s.encOffers ∧ t.decOffers = s.decOffers ∧
      t.agenda = rest

/-- R26, R34: the host sees of a unit that it accepts exactly when IDLE, that a response is ready exactly when DONE, and the
responses it has delivered, oldest first. It sees nothing else: states that agree on a unit's phase and on what it has
delivered look the same, whatever request it serves, whatever response it holds and whatever is in its datapath. -/
def Obligations.WhatTheHostSees : Prop :=
  (∀ s : State,
    ((viewEnc s).accepts = true ↔ s.enc.phase = .idle) ∧ ((viewEnc s).ready = true ↔ s.enc.phase = .done) ∧
    (viewEnc s).delivered = s.encLog.reverse.filterMap (·.2) ∧
    ((viewDec s).accepts = true ↔ s.dec.phase = .idle) ∧ ((viewDec s).ready = true ↔ s.dec.phase = .done) ∧
    (viewDec s).delivered = s.decLog.reverse.filterMap (·.2)) ∧
  ∀ s t : State,
    (s.enc.phase = t.enc.phase → (viewEnc s).delivered = (viewEnc t).delivered → viewEnc s = viewEnc t) ∧
    (s.dec.phase = t.dec.phase → (viewDec s).delivered = (viewDec t).delivered → viewDec s = viewDec t)

/-- After an error response the deliver step leaves DEC IDLE, and the next request is accepted and answered by its own
DECODE: nothing of the error is left. That the request first on the channel is the next one, where others stand behind
it, is the model's choice (log entry 8). -/
def Obligations.ErrorsLeaveNothingBehind : Prop :=
  ∀ (s : State) (rest : List Event) (r : DecRequest) (more : List DecRequest), s.dec.phase = .done →
    (∃ n, s.dec.resp = .invalidLength n) ∨ (∃ p ch, s.dec.resp = .invalidCharacter p ch) →
    s.decOffers = r :: more → r.admitted s.cfg = true →
    s.agenda = [.take .dec, .accept .dec, .compute .dec] ++ rest →
    (∃ t, stepN 1 s = .next t ∧ t.dec.phase = .idle) ∧
    ∃ t, stepN 3 s = .next t ∧ t.dec.phase = .done ∧ t.dec.resp = decodeOp r ∧ t.agenda = rest

/-- R60, R61, R68: the host reads every response of an admitted request back from its record, which fits its fields;
a record whose status is the reserved code is a fault of the host. -/
def Obligations.ResponsesReadBack : Prop :=
  (∀ (c : Config) (r : EncRequest), c.wf = true → r.admitted c = true →
    hostReadsEnc c (encResponseRecord c (encodeOp r)) = .next (encodeOp r)) ∧
  (∀ (c : Config) (r : DecRequest), c.wf = true → r.admitted c = true →
    hostReadsDec c (decResponseRecord c (decodeOp r)) = .next (decodeOp r)) ∧
  (∀ (c : Config) (fields elems : List MsgField),
    hostReadsDec c ⟨⟨2, 0b11⟩ :: fields, elems⟩ = .fault .reservedStatus)

/-! ## The whole machine -/

/-- After reset, for every build, both units are IDLE, nothing is offered, recorded or pending, and the first request can
be accepted by the very next steps. (The fields the spec leaves unspecified are not mentioned.) -/
def Obligations.ResetIsReady : Prop :=
  ∀ c : Config, (State.resetFor c).enc.phase = .idle ∧ (State.resetFor c).dec.phase = .idle ∧
    (State.resetFor c).encOffers = [] ∧ (State.resetFor c).decOffers = [] ∧
    (State.resetFor c).encLog = [] ∧ (State.resetFor c).decLog = [] ∧
    (∀ r : EncRequest, r.admitted c = true → ∃ t,
      stepN 2 ((State.resetFor c).setAgenda [.offer (encode c (.encode r)), .accept .enc]) = .next t ∧
        t.enc.phase = .busy ∧ t.enc.req = r) ∧
    (∀ r : DecRequest, r.admitted c = true → ∃ t,
      stepN 2 ((State.resetFor c).setAgenda [.offer (encode c (.decode r)), .accept .dec]) = .next t ∧
        t.dec.phase = .busy ∧ t.dec.req = r)

/-- The state after reset meets the invariant, for every build with `POS_W >= 4`. -/
def Obligations.ResetMeetsInvariant : Prop := ∀ c : Config, c.wf = true → Inv (State.resetFor c)

/-- Every step keeps the invariant, from every state that meets it: registers within their widths, the datapaths on
track, every response the operation of its request. -/
def Obligations.StepKeepsInvariant : Prop := ∀ s t : State, Inv s → step s = .next t → Inv t

/-- With a host that offers only framed requests within the limits, no step ever faults or refuses, and this goes on. -/
def Obligations.WellFramedRunsNeverStop : Prop :=
  ∀ s : State, Inv s → HostKeepsFraming s → ∃ t, step s = .next t ∧ Inv t ∧ HostKeepsFraming t

/-- Whatever the host offers, no step from a state that meets the invariant faults: the only stop is a refusal at the
interface. -/
def Obligations.StepNeverFaults : Prop :=
  ∀ (s : State) (f : Fault), Inv s → step s ≠ .fault f

/-- Every response a host ever receives is the operation of the request it was accepted for, in every run, under every
interleaving of moves, atomic or datapath. -/
def Obligations.DeliveredResponsesAreCorrect : Prop :=
  ∀ (s t : State) (k : Nat), Inv s → stepN k s = .next t →
    (∀ r p, (r, some p) ∈ t.encLog → p = encodeOp r) ∧ (∀ r p, (r, some p) ∈ t.decLog → p = decodeOp r)

/-- No later step answers a request that was abandoned or already answered: while a unit is IDLE its record is final, and
every later record only adds to it. -/
def Obligations.IdleRecordsAreFinal : Prop :=
  ∀ (s t : State) (k : Nat), Inv s → stepN k s = .next t →
    (s.enc.phase = .idle → s.encLog <:+ t.encLog) ∧ (s.dec.phase = .idle → s.decLog <:+ t.decLog)

/-- A unit's record changes in two ways only: an accepted request is added with no response, or the response of the
request accepted last is filled in; so there is one response per request, in acceptance order. -/
def Obligations.OneResponsePerRequest : Prop :=
  ∀ s t : State, Inv s → step s = .next t →
    (t.encLog = s.encLog ∨ (∃ r, s.enc.phase = .idle ∧ t.encLog = (r, none) :: s.encLog) ∨
      ∃ r older, s.enc.phase = .done ∧ s.encLog = (r, none) :: older ∧
        t.encLog = (r, some (encodeOp r)) :: older) ∧
    (t.decLog = s.decLog ∨ (∃ r, s.dec.phase = .idle ∧ t.decLog = (r, none) :: s.decLog) ∨
      ∃ r older, s.dec.phase = .done ∧ s.decLog = (r, none) :: older ∧
        t.decLog = (r, some (decodeOp r)) :: older)

/-- A request, once accepted, does not change: no step other than a reset changes the request of a unit that is not
IDLE, and no step ever changes the build. -/
def Obligations.AcceptedRequestsDoNotChange : Prop :=
  ∀ s t : State, step s = .next t → t.cfg = s.cfg ∧
    (s.agenda.head? ≠ some .reset →
      (s.enc.phase ≠ .idle → t.enc.req = s.enc.req) ∧ (s.dec.phase ≠ .idle → t.dec.req = s.dec.req))

/-- The units are independent: a step of ENC or on its channel changes nothing of DEC, and what it does to ENC depends
on nothing of DEC; and the other way round. -/
def Obligations.UnitsAreIndependent : Prop :=
  (∀ (s t s' : State) (e : Event) (rest : List Event),
    (∃ r, e = .offer (encode s.cfg (.encode r))) ∨ e = .accept .enc ∨ e = .compute .enc ∨
      e = .internal .enc ∨ e = .take .enc →
    s.agenda = e :: rest → t.agenda = e :: rest → s.cfg = t.cfg → s.enc = t.enc → s.encOffers = t.encOffers →
    s.encLog = t.encLog → step s = .next s' →
    s'.dec = s.dec ∧ s'.decOffers = s.decOffers ∧ s'.decLog = s.decLog ∧
    ∃ t', step t = .next t' ∧ s'.enc = t'.enc ∧ s'.encOffers = t'.encOffers ∧ s'.encLog = t'.encLog) ∧
  (∀ (s t s' : State) (e : Event) (rest : List Event),
    (∃ r, e = .offer (encode s.cfg (.decode r))) ∨ e = .accept .dec ∨ e = .compute .dec ∨
      e = .internal .dec ∨ e = .take .dec →
    s.agenda = e :: rest → t.agenda = e :: rest → s.cfg = t.cfg → s.dec = t.dec → s.decOffers = t.decOffers →
    s.decLog = t.decLog → step s = .next s' →
    s'.enc = s.enc ∧ s'.encOffers = s.encOffers ∧ s'.encLog = s.encLog ∧
    ∃ t', step t = .next t' ∧ s'.dec = t'.dec ∧ s'.decOffers = t'.decOffers ∧ s'.decLog = t'.decLog)

/-- Nothing the spec leaves unspecified reaches a response: two states that differ only in such fields (and in the reset
draws to come) step to the same outcome, again up to such fields, and show the host the same. -/
def Obligations.UnspecifiedFieldsNeverMatter : Prop :=
  ∀ s t : State, SameButUnspecified s t →
    outcomeSame (step s) (step t) ∧ viewEnc s = viewEnc t ∧ viewDec s = viewDec t

/-! ## Progress and the end of a run -/

/-- Every finite part of an execution is a run of `step`: the one whose agenda holds its moves. -/
def Obligations.FinitePartsAreRuns : Prop :=
  ∀ (state : Nat → State) (move : Nat → Event), Execution state move →
    ∀ n, stepN n ((state 0).setAgenda ((List.range n).map move)) = .next ((state n).setAgenda [])

/-- R23, R141: in every weakly fair execution a BUSY unit gets DONE with the response of its request, by its compute step
or by its datapath, unless a reset abandons the transaction first (R127). -/
def Obligations.BusyUnitsFinish : Prop :=
  ∀ (state : Nat → State) (move : Nat → Event), Execution state move → Inv (state 0) → UnitsFair state move →
    ∀ n,
    ((state n).enc.phase = .busy → ∃ m, n < m ∧
      ((∃ k, n ≤ k ∧ k < m ∧ move k = .reset) ∨
        ((state m).enc.phase = .done ∧ (state m).enc.resp = encodeOp (state n).enc.req))) ∧
    ((state n).dec.phase = .busy → ∃ m, n < m ∧
      ((∃ k, n ≤ k ∧ k < m ∧ move k = .reset) ∨
        ((state m).dec.phase = .done ∧ (state m).dec.resp = decodeOp (state n).dec.req)))

/-- R141, R142: a host program terminates under weak fairness of the units' compute steps and of the host's own steps:
once the host makes no further offer and no reset, every request standing or in flight is accepted and its response
taken, and it stays so. -/
def Obligations.HostProgramsTerminate : Prop :=
  ∀ (state : Nat → State) (move : Nat → Event) (last : Nat), Execution state move → Inv (state 0) →
    UnitsFair state move → HostFair state move →
    (∀ n, last ≤ n → move n ≠ .reset ∧ ∀ w, move n ≠ .offer w) →
    ∃ m, last ≤ m ∧ ∀ n, m ≤ n → served (state n)

/-- With no move of the host to come the block goes on by itself: after four steps no unit is BUSY and every offer before an
IDLE unit has been accepted. (The order of its moves is the model's choice, log entry 5.) -/
def Obligations.BlockGoesOnByItself : Prop :=
  ∀ s : State, Inv s → s.agenda = [] →
    ∃ t, stepN 4 s = .next t ∧ t.enc.phase ≠ .busy ∧ t.dec.phase ≠ .busy ∧
      (t.enc.phase = .idle → t.encOffers = []) ∧ (t.dec.phase = .idle → t.decOffers = []) ∧
      (s.enc.phase = .busy → t.enc.resp = encodeOp s.enc.req) ∧
      (s.dec.phase = .busy → t.dec.resp = decodeOp s.dec.req)

/-- R142: a run that starts with everything served and answered, makes no reset and ends shows, of each unit, the pairs it
started with and then every request the host offered with its operation's response. (That acceptance order is the order
of the offers is the model's choice, log entry 8.) -/
def Obligations.EndedRunsShowEveryRequest : Prop :=
  ∀ (s t : State) (k : Nat), Inv s → served s → allAnswered s → Event.reset ∉ s.agenda → RunEnds s k t →
    shownEnc t = shownEnc s ++ (encRequestsIn s.cfg s.agenda).map (fun r => (r, some (encodeOp r))) ∧
    shownDec t = shownDec s ++ (decRequestsIn s.cfg s.agenda).map (fun r => (r, some (decodeOp r)))

/-- R127, R142: a run whose last event is a reset ends there with both units IDLE, and shows no response for what the reset
abandoned or discarded: the pairs are those of the moment before. -/
def Obligations.ResetEndsRun : Prop :=
  ∀ (s u : State) (j : Nat), stepN j s = .next u → u.agenda = [.reset] →
    ∃ t, RunEnds s (j + 1) t ∧ t.agenda = [] ∧ t.enc.phase = .idle ∧ t.dec.phase = .idle ∧
      shownEnc t = shownEnc u ∧ shownDec t = shownDec u

/-- R26, R34, R137: the host sees a response when it is delivered, the whole of it at once, and in no step but the deliver
step of a DONE unit. So a response not yet taken shows only as being ready, and one that a reset discards never shows. -/
def Obligations.ResponsesShowAtDelivery : Prop :=
  (∀ (s : State) (rest : List Event) (r : EncRequest) (older : List (EncRequest × Option EncResponse)),
    s.agenda = .take .enc :: rest → s.enc.phase = .done → s.encLog = (r, none) :: older →
    ∃ t, step s = .next t ∧ viewEnc t = ⟨true, false, (viewEnc s).delivered ++ [s.enc.resp]⟩ ∧
      viewDec t = viewDec s) ∧
  (∀ (s : State) (rest : List Event) (r : DecRequest) (older : List (DecRequest × Option DecResponse)),
    s.agenda = .take .dec :: rest → s.dec.phase = .done → s.decLog = (r, none) :: older →
    ∃ t, step s = .next t ∧ viewDec t = ⟨true, false, (viewDec s).delivered ++ [s.dec.resp]⟩ ∧
      viewEnc t = viewEnc s) ∧
  ∀ s t : State, step s = .next t →
    (s.agenda.head? ≠ some (.take .enc) ∨ s.enc.phase ≠ .done → (viewEnc t).delivered = (viewEnc s).delivered) ∧
    (s.agenda.head? ≠ some (.take .dec) ∨ s.dec.phase ≠ .done → (viewDec t).delivered = (viewDec s).delivered)

end
end

