-- ==== Sys2Proof/Laws/Decode.lean ====
section
/-! SUPPORT. Symbol classes by exact equality, and how the decoder reads what the encoder writes. -/

namespace Sys2Proof

theorem classify_eq (c : Chr) :
    classify c = if c = high then .high else if c = low then .low else .invalid := by
  have hmask : c &&& 0x1FFFFF#21 = c := by
    have h : (0x1FFFFF#21 : Chr) = BitVec.allOnes 21 := by decide
    rw [h, BitVec.and_allOnes]
  have hzero : c &&& 0#21 = 0#21 := by simp
  unfold classify symTable
  simp only [List.find?_cons, SymRow.hits, hmask, hzero]
  by_cases h1 : c = high
  · subst h1; rfl
  · by_cases h2 : c = low
    · subst h2; rfl
    · have e1 : (c == (0x000020#21 : Chr)) = false := beq_eq_false_iff_ne.2 h1
      have e2 : (c == (0x00200B#21 : Chr)) = false := beq_eq_false_iff_ne.2 h2
      simp [h1, h2, e1, e2]

theorem high_ne_low : high ≠ low := by decide

@[simp] theorem classify_high : classify high = .high := by decide
@[simp] theorem classify_low : classify low = .low := by decide

theorem classify_invalid_iff (c : Chr) : classify c = .invalid ↔ c ≠ high ∧ c ≠ low := by
  rw [classify_eq]
  by_cases h1 : c = high
  · simp [h1]
  · by_cases h2 : c = low
    · simp [h2, Ne.symm high_ne_low]
    · simp [h1, h2]

theorem symInstr_eq (c : Chr) :
    symInstr c = if c = high then .symHigh else if c = low then .symLow else .symInvalid c := by
  unfold symInstr
  rw [classify_eq]
  by_cases h1 : c = high
  · simp [h1]
  · by_cases h2 : c = low
    · simp [h2, Ne.symm high_ne_low]
    · simp [h1, h2]

/-- A character that crosses the interface is decoded as itself. -/
theorem decode_symbolWord (cfg : Config) (c : Chr) : decode cfg (symbolWord c) = .ok (symInstr c) := by
  have h : c.toNat < 2 ^ 21 := c.isLt
  simp only [decode, symbolWord, h, and_self, if_true, BitVec.ofNat_toNat, BitVec.setWidth_eq]

/-- Elements come back as they were written. -/
theorem decodeElems_encodeElems {w : Nat} (xs : List (BitVec w)) :
    decodeElems w (encodeElems xs) = .ok xs := by
  induction xs with
  | nil => rfl
  | cons x xs ih =>
    have hx : x.toNat < 2 ^ w := x.isLt
    simp only [encodeElems, List.map_cons, decodeElems] at *
    simp [hx, ih]

/-- Elements that decode are the encoding of what they decode to. -/
theorem encodeElems_of_decodeElems {w : Nat} {fs : List MsgField} {xs : List (BitVec w)}
    (h : decodeElems w fs = .ok xs) : encodeElems xs = fs := by
  induction fs generalizing xs with
  | nil => cases h; rfl
  | cons f fs ih =>
    simp only [decodeElems] at h
    split at h
    · next hf =>
      split at h
      · next ys hys =>
        cases h
        have := ih hys
        simp only [encodeElems, List.map_cons] at this ⊢
        rw [this, BitVec.toNat_ofNat, Nat.mod_eq_of_lt hf.2, ← hf.1]
      · cases h
    · cases h

/-- A framed request message decodes to its length and elements; otherwise it is rejected by the name
of the first thing wrong. -/
theorem decodeRequest_record {w : Nat} (lenW n : Nat) (xs : List (BitVec w)) :
    decodeRequest lenW w ⟨[⟨lenW, n⟩], encodeElems xs⟩ =
      if n < 2 ^ lenW then
        if xs.length = n then .ok (n, xs) else .error .framing
      else .error .lengthUnrepresentable := by
  simp only [decodeRequest, decodeLen, decodeElems_encodeElems]
  by_cases h : n < 2 ^ lenW <;> simp [h]

/-- What a request message must be to decode. -/
theorem decodeRequest_ok {lenW w : Nat} {m : MsgRecord} {n : Nat} {xs : List (BitVec w)}
    (h : decodeRequest lenW w m = .ok (n, xs)) :
    m = ⟨[⟨lenW, n⟩], encodeElems xs⟩ ∧ n < 2 ^ lenW ∧ xs.length = n := by
  obtain ⟨fields, elems⟩ := m
  simp only [decodeRequest] at h
  split at h
  · cases h
  · next k hk =>
    split at h
    · cases h
    · next ys hys =>
      split at h
      · next hlen =>
        cases h
        simp only [decodeLen] at hk
        split at hk
        · next f =>
          split at hk
          · cases hk
          · next hw =>
            split at hk
            · next hv =>
              cases hk
              refine ⟨?_, hv, hlen⟩
              rw [encodeElems_of_decodeElems hys, ← Decidable.not_not.1 hw]
            · cases hk
        · cases hk
      · cases h

theorem EncRequest.admitted_iff (c : Config) (r : EncRequest) :
    r.admitted c = true ↔ r.data.length = r.len ∧ r.len < 2 ^ c.encLenW := by
  have : 0 < 2 ^ (c.posW - 3) := Nat.two_pow_pos _
  simp only [EncRequest.admitted, Bool.and_eq_true, beq_iff_eq, decide_eq_true_eq]
  simp only [Config.maxEncLen, Config.encLenW]
  constructor <;> rintro ⟨h1, h2⟩ <;> exact ⟨h1.symm, by omega⟩

theorem DecRequest.admitted_iff (c : Config) (r : DecRequest) :
    r.admitted c = true ↔ r.data.length = r.len ∧ r.len < 2 ^ c.posW := by
  have : 0 < 2 ^ c.posW := Nat.two_pow_pos _
  simp only [DecRequest.admitted, Bool.and_eq_true, beq_iff_eq, decide_eq_true_eq]
  simp only [Config.maxDecLen]
  constructor <;> rintro ⟨h1, h2⟩ <;> exact ⟨h1.symm, by omega⟩

/-- The message of an ENCODE request, decoded (R55, R57). -/
theorem decode_encode_command (c : Config) (r : EncRequest) :
    decode c (encode c (.encode r)) =
      if r.len < 2 ^ c.encLenW then
        if r.data.length = r.len then .ok (.encode r) else .error .framing
      else .error .lengthUnrepresentable := by
  simp only [decode, encode, decodeRequest_record]
  by_cases h : r.len < 2 ^ c.encLenW <;> by_cases h2 : r.data.length = r.len <;> simp [h, h2]

/-- The message of a DECODE request, decoded (R55, R59). -/
theorem decode_decode_command (c : Config) (r : DecRequest) :
    decode c (encode c (.decode r)) =
      if r.len < 2 ^ c.posW then
        if r.data.length = r.len then .ok (.decode r) else .error .framing
      else .error .lengthUnrepresentable := by
  simp only [decode, encode, decodeRequest_record]
  by_cases h : r.len < 2 ^ c.posW <;> by_cases h2 : r.data.length = r.len <;> simp [h, h2]

theorem decode_of_admitted_enc {c : Config} {r : EncRequest} (h : r.admitted c = true) :
    decode c (encode c (.encode r)) = .ok (.encode r) := by
  obtain ⟨h1, h2⟩ := (r.admitted_iff c).1 h
  rw [decode_encode_command, if_pos h2, if_pos h1]

theorem decode_of_admitted_dec {c : Config} {r : DecRequest} (h : r.admitted c = true) :
    decode c (encode c (.decode r)) = .ok (.decode r) := by
  obtain ⟨h1, h2⟩ := (r.admitted_iff c).1 h
  rw [decode_decode_command, if_pos h2, if_pos h1]

/-- Whatever symbol decodes is a 21-bit character, read as the row it selects (R64). -/
theorem decode_ok_symbol {c : Config} {f : MsgField} {i : Instr} (h : decode c (.symbol f) = .ok i) :
    ∃ ch : Chr, CodeWord.symbol f = symbolWord ch ∧ i = symInstr ch := by
  simp only [decode] at h
  split at h
  · next hf =>
    cases h
    refine ⟨BitVec.ofNat 21 f.value, ?_, rfl⟩
    obtain ⟨w, v⟩ := f
    simp only at hf
    rw [symbolWord, BitVec.toNat_ofNat, Nat.mod_eq_of_lt hf.2, hf.1]
  · cases h

/-- Whatever command decodes is a request. -/
theorem decode_ok_command {c : Config} {sel : MsgField} {m : MsgRecord} {i : Instr}
    (h : decode c (.command sel m) = .ok i) : (∃ r, i = .encode r) ∨ ∃ r, i = .decode r := by
  simp only [decode] at h
  split at h
  · cases h
  · split at h
    · split at h
      · cases h; exact .inl ⟨_, rfl⟩
      · cases h
    · split at h
      · split at h
        · cases h; exact .inr ⟨_, rfl⟩
        · cases h
      · cases h

/-- Whatever decodes to an ENCODE request is that request's message, admitted. -/
theorem decode_ok_encode {c : Config} {w : CodeWord} {r : EncRequest} (h : decode c w = .ok (.encode r)) :
    w = encode c (.encode r) ∧ r.admitted c = true := by
  cases w with
  | command sel msg =>
    simp only [decode] at h
    split at h
    · cases h
    · next hs =>
      split at h
      · next h0 =>
        split at h
        · next n xs hreq =>
          cases h
          obtain ⟨hm, hn, hl⟩ := decodeRequest_ok hreq
          refine ⟨?_, (EncRequest.admitted_iff _ _).2 ⟨hl, hn⟩⟩
          obtain ⟨sw, sv⟩ := sel
          simp only [Decidable.not_not] at hs h0
          subst h0; subst hs; subst hm; rfl
        · cases h
      · split at h
        · split at h <;> cases h
        · cases h
  | symbol f =>
    simp only [decode] at h
    split at h
    · rw [symInstr_eq] at h
      split at h
      · cases h
      · split at h <;> cases h
    · cases h

/-- Whatever decodes to a DECODE request is that request's message, admitted. -/
theorem decode_ok_decode {c : Config} {w : CodeWord} {r : DecRequest} (h : decode c w = .ok (.decode r)) :
    w = encode c (.decode r) ∧ r.admitted c = true := by
  cases w with
  | command sel msg =>
    simp only [decode] at h
    split at h
    · cases h
    · next hs =>
      split at h
      · split at h <;> cases h
      · split at h
        · next h1 =>
          split at h
          · next n xs hreq =>
            cases h
            obtain ⟨hm, hn, hl⟩ := decodeRequest_ok hreq
            refine ⟨?_, (DecRequest.admitted_iff _ _).2 ⟨hl, hn⟩⟩
            obtain ⟨sw, sv⟩ := sel
            simp only [Decidable.not_not] at hs h1
            subst h1; subst hs; subst hm; rfl
          · cases h
        · cases h
  | symbol f =>
    simp only [decode] at h
    split at h
    · rw [symInstr_eq] at h
      split at h
      · cases h
      · split at h <;> cases h
    · cases h

end Sys2Proof
end

