-- ==== Sys2Proof/Laws/Operands.lean ====
section
/-! SUPPORT. One law per operand form: the bit of a byte, the byte of a group, the symbol of a bit, the
scan of a request, and the elements of a concatenation of equal groups. -/

namespace Sys2Proof.Machine

/-! ## Reading and writing elements -/

theorem inRead_eq_some {α : Type} {len : Nat} {data : List α} {i : Nat} {x : α} :
    inRead len data i = some x ↔ i < len ∧ data[i]? = some x := by
  unfold inRead; split <;> simp_all

theorem inRead_of_lt {α : Type} {len : Nat} {data : List α} {i : Nat} (hl : data.length = len)
    (h : i < len) : inRead len data i = some (data[i]'(hl ▸ h)) := by
  simp [inRead, h, hl]

/-- In the order R38 gives, a write appends. -/
@[simp] theorem outWrite_append {α : Type} (buf : List α) (v : α) :
    outWrite buf buf.length v = some (buf ++ [v]) := by
  simp [outWrite]

/-! ## Bits and symbols -/

theorem bit_eq_getLsbD (b : Byte) (p : Nat) : bit b p = b.getLsbD p := by
  unfold bit
  rw [← BitVec.twoPow_eq, BitVec.and_twoPow]
  by_cases hb : b.getLsbD p = true
  · have hp : p < 8 := BitVec.lt_of_getLsbD hb
    have : BitVec.twoPow 8 p ≠ 0#8 := by
      intro h0
      have := congrArg (fun x => BitVec.getLsbD x p) h0
      simp [hp] at this
    simp [hb, this]
  · simp [hb]

theorem symBit_eq (c : Chr) :
    symBit c = if c = high then some true else if c = low then some false else none := by
  unfold symBit
  rw [classify_eq]
  by_cases h1 : c = high
  · simp [h1]
  · by_cases h2 : c = low
    · simp [h2, Ne.symm high_ne_low]
    · simp [h1, h2]

theorem symBit_of_alphabetic {c : Chr} (h : alphabetic c) : symBit c = some (c == high) := by
  rw [symBit_eq]
  rcases h with h | h
  · simp [h]
  · simp [h, Ne.symm high_ne_low]

theorem symBit_of_offender {c : Chr} (h : ¬ alphabetic c) : symBit c = none := by
  rw [symBit_eq]
  simp only [alphabetic, not_or] at h
  simp [h.1, h.2]

theorem classify_of_offender {c : Chr} (h : ¬ alphabetic c) : classify c = .invalid := by
  simp only [alphabetic, not_or] at h
  exact (classify_invalid_iff c).2 h

theorem sym_alphabetic (b : Bool) : alphabetic (sym b) := by
  cases b
  · exact .inr rfl
  · exact .inl rfl

theorem sym_eq_high (b : Bool) : (sym b == high) = b := by
  cases b <;> decide

theorem sym_of_alphabetic {c : Chr} (h : alphabetic c) : sym (c == high) = c := by
  rcases h with h | h <;> subst h <;> decide

/-! ## The byte of a group -/

theorem bitByte_getLsbD (b : Bool) (q : Nat) : (bitByte b).getLsbD q = (decide (q = 0) && b) := by
  cases b
  · simp [bitByte]
  · simp only [bitByte, if_true, Bool.and_true]
    rcases q with _ | q
    · rfl
    · simp [BitVec.getLsbD_one]

theorem packFrom_getLsbD (bs : List Bool) (acc : Byte) (t p : Nat) (ht : t + bs.length ≤ 8) (hp : p < 8) :
    (packFrom acc t bs).getLsbD p =
      (acc.getLsbD p || (decide (t ≤ 7 - p) && bs.getD (7 - p - t) false)) := by
  induction bs generalizing acc t with
  | nil => simp [packFrom]
  | cons b bs ih =>
    simp only [List.length_cons] at ht
    rw [packFrom, ih _ _ (by omega)]
    simp only [BitVec.getLsbD_or, BitVec.getLsbD_shiftLeft, bitByte_getLsbD, hp, decide_true, Bool.true_and]
    by_cases h1 : t = 7 - p
    · have e1 : ¬ (t + 1 ≤ 7 - p) := by omega
      have e2 : ¬ (p < 7 - t) := by omega
      have e3 : p - (7 - t) = 0 := by omega
      have e4 : 7 - p - t = 0 := by omega
      have e5 : t ≤ 7 - p := by omega
      simp [e1, e2, e3, e4, e5]
    · by_cases h2 : t < 7 - p
      · have e1 : t + 1 ≤ 7 - p := by omega
        have e2 : p < 7 - t := by omega
        have e4 : 7 - p - t = (7 - p - (t + 1)) + 1 := by omega
        have e5 : t ≤ 7 - p := by omega
        simp [e1, e2, e4, e5]
      · have e1 : ¬ (t + 1 ≤ 7 - p) := by omega
        have e2 : ¬ (p < 7 - t) := by omega
        have e3 : ¬ (p - (7 - t) = 0) := by omega
        have e5 : ¬ (t ≤ 7 - p) := by omega
        simp [e1, e2, e3, e5]

/-- `pack(t)[7 - k] = t[k]` (R67). -/
theorem pack_getLsbD (bs : List Bool) (hlen : bs.length = 8) (k : Nat) (hk : k < 8) :
    (pack bs).getLsbD (7 - k) = bs.getD k false := by
  rw [pack, packFrom_getLsbD bs _ _ _ (by omega) (by omega)]
  have : 7 - (7 - k) - 0 = k := by omega
  simp only [this]
  simp

/-! ## Groups of eight -/

@[simp] theorem encodeByte_length (b : Byte) : (encodeByte b).length = 8 := rfl

theorem encodeByte_getElem? (b : Byte) (j : Nat) (hj : j < 8) :
    (encodeByte b)[j]? = some (sym (b.getLsbD (7 - j))) := by
  have : (encodeByte b)[j]? = some (sym (bit b (7 - j))) := by
    unfold encodeByte
    interval_cases j <;> rfl
  rw [this, bit_eq_getLsbD]

theorem flatMap_eight_length {α β : Type} (f : α → List β) (hf : ∀ a, (f a).length = 8) (l : List α) :
    (l.flatMap f).length = 8 * l.length := by
  induction l with
  | nil => rfl
  | cons a l ih => simp [hf a, ih]; omega

theorem flatMap_eight_getElem? {α β : Type} (f : α → List β) (hf : ∀ a, (f a).length = 8) (l : List α)
    (i j : Nat) (hj : j < 8) : (l.flatMap f)[8 * i + j]? = l[i]?.bind fun a => (f a)[j]? := by
  induction l generalizing i with
  | nil => simp
  | cons a l ih =>
    rw [List.flatMap_cons]
    rcases i with _ | i
    · rw [List.getElem?_append_left (by rw [hf]; omega)]
      simp
    · rw [List.getElem?_append_right (by rw [hf]; omega), hf]
      have : 8 * (i + 1) + j - 8 = 8 * i + j := by omega
      rw [this, ih]
      simp

theorem groupAt_length (bits : List Bool) (g : Nat) (h : 8 * g + 7 < bits.length) :
    (groupAt bits g).length = 8 := by
  simp [groupAt]; omega

theorem groupAt_getD (bits : List Bool) (g j : Nat) (hj : j < 8) :
    (groupAt bits g).getD j false = bits.getD (8 * g + j) false := by
  simp [groupAt, List.getD_eq_getElem?_getD, hj]

@[simp] theorem packGroups_length (bits : List Bool) (n : Nat) : (packGroups bits n).length = n := by
  simp [packGroups]

theorem packGroups_succ (bits : List Bool) (n : Nat) :
    packGroups bits (n + 1) = packGroups bits n ++ [pack (groupAt bits n)] := by
  simp [packGroups, List.range_succ]

theorem packGroups_getElem? (bits : List Bool) (n g : Nat) (h : g < n) :
    (packGroups bits n)[g]? = some (pack (groupAt bits g)) := by
  simp [packGroups, h]

/-! ## The scan -/

@[simp] theorem bitsOf_length (cs : List Chr) : (bitsOf cs).length = cs.length := by simp [bitsOf]

theorem bitsOf_getD (cs : List Chr) (k : Nat) (h : k < cs.length) :
    (bitsOf cs).getD k false = (cs[k] == high) := by
  simp [bitsOf, List.getD_eq_getElem?_getD, h]

/-- A request of alphabet characters passes, with its bits (R87). -/
theorem scan_ok (cs : List Chr) (k : Nat) (h : ∀ c ∈ cs, alphabetic c) : scan k cs = .ok (bitsOf cs) := by
  induction cs generalizing k with
  | nil => rfl
  | cons c cs ih =>
    rw [scan, symBit_of_alphabetic (h c (by simp)), ih (k + 1) (fun c hc => h c (by simp [hc]))]
    rfl

/-- The scan stops at the first offender, whatever follows it (R89, R90). -/
theorem scan_error (cs : List Chr) (k i : Nat) (c : Chr) (hi : cs[i]? = some c) (hc : ¬ alphabetic c)
    (hbefore : ∀ (j : Nat) (d : Chr), j < i → cs[j]? = some d → alphabetic d) :
    scan k cs = .error (.invalidCharacter (k + i) c) := by
  induction cs generalizing k i with
  | nil => simp at hi
  | cons x cs ih =>
    rw [scan]
    rcases i with _ | i
    · simp only [List.getElem?_cons_zero, Option.some.injEq] at hi
      subst hi
      rw [symBit_of_offender hc]
      rfl
    · rw [symBit_of_alphabetic (hbefore 0 x (by omega) (by simp))]
      have := ih (k + 1) i (by simpa using hi)
        (fun j d hj hd => hbefore (j + 1) d (by omega) (by simpa using hd))
      rw [this]
      have e : k + 1 + i = k + (i + 1) := by omega
      rw [e]

/-- A request has only alphabet characters, or a first offender (R96). -/
theorem first_offender (cs : List Chr) :
    (∀ c ∈ cs, alphabetic c) ∨ ∃ (i : Nat) (c : Chr), cs[i]? = some c ∧ ¬ alphabetic c ∧
      ∀ (j : Nat) (d : Chr), j < i → cs[j]? = some d → alphabetic d := by
  induction cs with
  | nil => exact .inl fun c hc => nomatch hc
  | cons x cs ih =>
    by_cases hx : alphabetic x
    · rcases ih with h | ⟨i, c, hi, hc, hb⟩
      · refine .inl fun c hc => ?_
        rcases List.mem_cons.1 hc with rfl | hc
        · exact hx
        · exact h c hc
      · refine .inr ⟨i + 1, c, by simpa using hi, hc, fun j d hj hd => ?_⟩
        rcases j with _ | j
        · simp only [List.getElem?_cons_zero, Option.some.injEq] at hd
          exact hd ▸ hx
        · exact hb j d (by omega) (by simpa using hd)
    · exact .inr ⟨0, x, by simp, hx, fun j _ hj _ => absurd hj (Nat.not_lt_zero j)⟩

end Sys2Proof.Machine
end

