-- ==== Sys2Proof/Laws/State.lean ====
section
/-! SUPPORT. What each update of State leaves in each field. -/

namespace Sys2Proof.Machine.State

section
variable (s : State) (v : EncUnit)
@[simp] theorem setEnc_cfg : (s.setEnc v).cfg = s.cfg := rfl
@[simp] theorem setEnc_enc : (s.setEnc v).enc = v := rfl
@[simp] theorem setEnc_dec : (s.setEnc v).dec = s.dec := rfl
@[simp] theorem setEnc_encOffers : (s.setEnc v).encOffers = s.encOffers := rfl
@[simp] theorem setEnc_decOffers : (s.setEnc v).decOffers = s.decOffers := rfl
@[simp] theorem setEnc_encLog : (s.setEnc v).encLog = s.encLog := rfl
@[simp] theorem setEnc_decLog : (s.setEnc v).decLog = s.decLog := rfl
@[simp] theorem setEnc_agenda : (s.setEnc v).agenda = s.agenda := rfl
@[simp] theorem setEnc_draws : (s.setEnc v).draws = s.draws := rfl
end

section
variable (s : State) (v : DecUnit)
@[simp] theorem setDec_cfg : (s.setDec v).cfg = s.cfg := rfl
@[simp] theorem setDec_enc : (s.setDec v).enc = s.enc := rfl
@[simp] theorem setDec_dec : (s.setDec v).dec = v := rfl
@[simp] theorem setDec_encOffers : (s.setDec v).encOffers = s.encOffers := rfl
@[simp] theorem setDec_decOffers : (s.setDec v).decOffers = s.decOffers := rfl
@[simp] theorem setDec_encLog : (s.setDec v).encLog = s.encLog := rfl
@[simp] theorem setDec_decLog : (s.setDec v).decLog = s.decLog := rfl
@[simp] theorem setDec_agenda : (s.setDec v).agenda = s.agenda := rfl
@[simp] theorem setDec_draws : (s.setDec v).draws = s.draws := rfl
end

section
variable (s : State) (v : List EncRequest)
@[simp] theorem setEncOffers_cfg : (s.setEncOffers v).cfg = s.cfg := rfl
@[simp] theorem setEncOffers_enc : (s.setEncOffers v).enc = s.enc := rfl
@[simp] theorem setEncOffers_dec : (s.setEncOffers v).dec = s.dec := rfl
@[simp] theorem setEncOffers_encOffers : (s.setEncOffers v).encOffers = v := rfl
@[simp] theorem setEncOffers_decOffers : (s.setEncOffers v).decOffers = s.decOffers := rfl
@[simp] theorem setEncOffers_encLog : (s.setEncOffers v).encLog = s.encLog := rfl
@[simp] theorem setEncOffers_decLog : (s.setEncOffers v).decLog = s.decLog := rfl
@[simp] theorem setEncOffers_agenda : (s.setEncOffers v).agenda = s.agenda := rfl
@[simp] theorem setEncOffers_draws : (s.setEncOffers v).draws = s.draws := rfl
end

section
variable (s : State) (v : List DecRequest)
@[simp] theorem setDecOffers_cfg : (s.setDecOffers v).cfg = s.cfg := rfl
@[simp] theorem setDecOffers_enc : (s.setDecOffers v).enc = s.enc := rfl
@[simp] theorem setDecOffers_dec : (s.setDecOffers v).dec = s.dec := rfl
@[simp] theorem setDecOffers_encOffers : (s.setDecOffers v).encOffers = s.encOffers := rfl
@[simp] theorem setDecOffers_decOffers : (s.setDecOffers v).decOffers = v := rfl
@[simp] theorem setDecOffers_encLog : (s.setDecOffers v).encLog = s.encLog := rfl
@[simp] theorem setDecOffers_decLog : (s.setDecOffers v).decLog = s.decLog := rfl
@[simp] theorem setDecOffers_agenda : (s.setDecOffers v).agenda = s.agenda := rfl
@[simp] theorem setDecOffers_draws : (s.setDecOffers v).draws = s.draws := rfl
end

section
variable (s : State) (v : List (EncRequest × Option EncResponse))
@[simp] theorem setEncLog_cfg : (s.setEncLog v).cfg = s.cfg := rfl
@[simp] theorem setEncLog_enc : (s.setEncLog v).enc = s.enc := rfl
@[simp] theorem setEncLog_dec : (s.setEncLog v).dec = s.dec := rfl
@[simp] theorem setEncLog_encOffers : (s.setEncLog v).encOffers = s.encOffers := rfl
@[simp] theorem setEncLog_decOffers : (s.setEncLog v).decOffers = s.decOffers := rfl
@[simp] theorem setEncLog_encLog : (s.setEncLog v).encLog = v := rfl
@[simp] theorem setEncLog_decLog : (s.setEncLog v).decLog = s.decLog := rfl
@[simp] theorem setEncLog_agenda : (s.setEncLog v).agenda = s.agenda := rfl
@[simp] theorem setEncLog_draws : (s.setEncLog v).draws = s.draws := rfl
end

section
variable (s : State) (v : List (DecRequest × Option DecResponse))
@[simp] theorem setDecLog_cfg : (s.setDecLog v).cfg = s.cfg := rfl
@[simp] theorem setDecLog_enc : (s.setDecLog v).enc = s.enc := rfl
@[simp] theorem setDecLog_dec : (s.setDecLog v).dec = s.dec := rfl
@[simp] theorem setDecLog_encOffers : (s.setDecLog v).encOffers = s.encOffers := rfl
@[simp] theorem setDecLog_decOffers : (s.setDecLog v).decOffers = s.decOffers := rfl
@[simp] theorem setDecLog_encLog : (s.setDecLog v).encLog = s.encLog := rfl
@[simp] theorem setDecLog_decLog : (s.setDecLog v).decLog = v := rfl
@[simp] theorem setDecLog_agenda : (s.setDecLog v).agenda = s.agenda := rfl
@[simp] theorem setDecLog_draws : (s.setDecLog v).draws = s.draws := rfl
end

section
variable (s : State) (v : List Event)
@[simp] theorem setAgenda_cfg : (s.setAgenda v).cfg = s.cfg := rfl
@[simp] theorem setAgenda_enc : (s.setAgenda v).enc = s.enc := rfl
@[simp] theorem setAgenda_dec : (s.setAgenda v).dec = s.dec := rfl
@[simp] theorem setAgenda_encOffers : (s.setAgenda v).encOffers = s.encOffers := rfl
@[simp] theorem setAgenda_decOffers : (s.setAgenda v).decOffers = s.decOffers := rfl
@[simp] theorem setAgenda_encLog : (s.setAgenda v).encLog = s.encLog := rfl
@[simp] theorem setAgenda_decLog : (s.setAgenda v).decLog = s.decLog := rfl
@[simp] theorem setAgenda_agenda : (s.setAgenda v).agenda = v := rfl
@[simp] theorem setAgenda_draws : (s.setAgenda v).draws = s.draws := rfl
end

section
variable (s : State) (v : Nat)
@[simp] theorem setDraws_cfg : (s.setDraws v).cfg = s.cfg := rfl
@[simp] theorem setDraws_enc : (s.setDraws v).enc = s.enc := rfl
@[simp] theorem setDraws_dec : (s.setDraws v).dec = s.dec := rfl
@[simp] theorem setDraws_encOffers : (s.setDraws v).encOffers = s.encOffers := rfl
@[simp] theorem setDraws_decOffers : (s.setDraws v).decOffers = s.decOffers := rfl
@[simp] theorem setDraws_encLog : (s.setDraws v).encLog = s.encLog := rfl
@[simp] theorem setDraws_decLog : (s.setDraws v).decLog = s.decLog := rfl
@[simp] theorem setDraws_agenda : (s.setDraws v).agenda = s.agenda := rfl
@[simp] theorem setDraws_draws : (s.setDraws v).draws = v := rfl
end

end Sys2Proof.Machine.State
end

