-- ==== Sys2Proof/Laws/Decoder.lean ====
section
/-! SUPPORT. What DECODE answers, case by case, and what one step of DEC's datapath does while it is on track. -/

namespace Sys2Proof.Machine

theorem execDecode_busy {r : DecRequest} {s : State} (hp : s.dec.phase = .busy) (hr : s.dec.req = r) :
    execDecode r s = .next (respondDec (decodeOp r) s) := by
  rw [execDecode, if_pos ⟨hp, hr⟩]

theorem execDecode_waits {r : DecRequest} {s : State} (h : ¬ (s.dec.phase = .busy ∧ s.dec.req = r)) :
    execDecode r s = .next s := by
  rw [execDecode, if_neg h]

/-- Everything DECODE can do. -/
theorem execDecode_cases (r : DecRequest) (s : State) :
    (s.dec.phase = .busy ∧ s.dec.req = r ∧ execDecode r s = .next (respondDec (decodeOp r) s)) ∨
      (¬ (s.dec.phase = .busy ∧ s.dec.req = r) ∧ execDecode r s = .next s) := by
  by_cases h : s.dec.phase = .busy ∧ s.dec.req = r
  · exact .inl ⟨h.1, h.2, execDecode_busy h.1 h.2⟩
  · exact .inr ⟨h, execDecode_waits h⟩

theorem lengthOk_iff (m : Nat) : lengthOk m = true ↔ m % 8 = 0 := by simp [lengthOk]

/-! ## The three outcomes (R96) -/

theorem decodeOp_ok {r : DecRequest} (h : ∀ c ∈ r.data, alphabetic c) (hm : r.len % 8 = 0) :
    decodeOp r = .ok (r.len / 8) (packGroups (bitsOf r.data) (r.len / 8)) := by
  rw [decodeOp, scan_ok _ _ h]
  simp only [(lengthOk_iff _).2 hm, if_true]

theorem decodeOp_badLength {r : DecRequest} (h : ∀ c ∈ r.data, alphabetic c) (hm : r.len % 8 ≠ 0) :
    decodeOp r = .invalidLength r.len := by
  have : ¬ lengthOk r.len = true := fun hl => hm ((lengthOk_iff _).1 hl)
  rw [decodeOp, scan_ok _ _ h]
  simp only [this]
  rfl

theorem decodeOp_badChar {r : DecRequest} {i : Nat} {c : Chr} (hi : r.data[i]? = some c)
    (hc : ¬ alphabetic c) (hb : ∀ (j : Nat) (d : Chr), j < i → r.data[j]? = some d → alphabetic d) :
    decodeOp r = .invalidCharacter i c := by
  rw [decodeOp, scan_error _ 0 i c hi hc hb, Nat.zero_add]
  rfl

/-- Bit `7 - k mod 8` of byte `k div 8` is the bit of character `k` (R93). -/
theorem packGroups_bit (cs : List Chr) (n k : Nat) (hlen : cs.length = 8 * n) (hk : k < 8 * n)
    (hkl : k < cs.length) :
    ((packGroups (bitsOf cs) n)[k / 8]?.map fun b => b.getLsbD (7 - k % 8)) = some (cs[k] == high) := by
  have hg : k / 8 < n := by omega
  have hfull : 8 * (k / 8) + 7 < (bitsOf cs).length := by rw [bitsOf_length]; omega
  rw [packGroups_getElem? _ _ _ hg]
  simp only [Option.map_some]
  rw [pack_getLsbD _ (groupAt_length _ _ hfull) _ (by omega), groupAt_getD _ _ _ (by omega)]
  have e : 8 * (k / 8) + k % 8 = k := by omega
  rw [e, bitsOf_getD _ _ hkl]

/-! ## DEC's datapath on track -/

theorem take_add_one_bits (cs : List Chr) (k : Nat) (c : Chr) (h : cs[k]? = some c) :
    bitsOf (cs.take (k + 1)) = bitsOf (cs.take k) ++ [c == high] := by
  rw [List.take_add_one, h]
  simp [bitsOf]

/-- A PACK step on track with groups left packs the next one and stays on track (R106). -/
theorem decPack_packs {s : State} (hlen : s.dec.req.data.length = s.dec.req.len)
    (hs : s.dec.dStep = .pack) (ht : decOnTrack s.dec) (hlt : s.dec.dG < s.dec.req.len / 8) :
    decPack s = .next (s.setDec { s.dec with
        dAcc := pack (groupAt s.dec.dBits s.dec.dG),
        dOut := s.dec.dOut ++ [pack (groupAt s.dec.dBits s.dec.dG)], dG := s.dec.dG + 1 }) ∧
      decOnTrack { s.dec with
        dAcc := pack (groupAt s.dec.dBits s.dec.dG),
        dOut := s.dec.dOut ++ [pack (groupAt s.dec.dBits s.dec.dG)], dG := s.dec.dG + 1 } := by
  obtain ⟨h1, h2, h3⟩ := ht
  rw [hs] at h3
  obtain ⟨hk, hm, hg, ho⟩ := h3
  have hbits : s.dec.dBits.length = s.dec.req.len := by
    rw [h2, bitsOf_length, List.length_take, hlen, hk, Nat.min_self]
  have hol : s.dec.dOut.length = s.dec.dG := by rw [ho, packGroups_length]
  constructor
  · rw [decPack, if_neg (by omega), if_pos (by omega)]
    have : outWrite s.dec.dOut s.dec.dG (pack (groupAt s.dec.dBits s.dec.dG)) =
        some (s.dec.dOut ++ [pack (groupAt s.dec.dBits s.dec.dG)]) := by
      conv => lhs; rw [← hol]
      rw [outWrite_append, hol]
    rw [this]
  · refine ⟨h1, h2, ?_⟩
    simp only [hs]
    refine ⟨hk, hm, by omega, ?_⟩
    rw [packGroups_succ, ← ho]

/-- A PACK step on track with no group left responds with `F_DEC` of the request (R94, R107). -/
theorem decPack_completes {s : State} (hlen : s.dec.req.data.length = s.dec.req.len)
    (hs : s.dec.dStep = .pack) (ht : decOnTrack s.dec) (he : s.dec.dG = s.dec.req.len / 8) :
    decPack s = .next (respondDec (decodeOp s.dec.req) s) := by
  obtain ⟨h1, h2, h3⟩ := ht
  rw [hs] at h3
  obtain ⟨hk, hm, -, ho⟩ := h3
  have hall : s.dec.req.data.take s.dec.dK = s.dec.req.data :=
    List.take_of_length_le (by omega)
  rw [hall] at h1 h2
  rw [decPack, if_pos he, decodeOp_ok h1 hm, ho, h2, he]

end Sys2Proof.Machine
end

