-- ==== Sys2Proof/Laws/Encoder.lean ====
section
/-! SUPPORT. What ENCODE answers, the elements of its response, and what one step of ENC's datapath does while
it is on track. -/

namespace Sys2Proof.Machine

theorem execEncode_busy {r : EncRequest} {s : State} (hp : s.enc.phase = .busy) (hr : s.enc.req = r) :
    execEncode r s = .next (respondEnc (encodeOp r) s) := by
  rw [execEncode, if_pos ⟨hp, hr⟩]

theorem execEncode_waits {r : EncRequest} {s : State} (h : ¬ (s.enc.phase = .busy ∧ s.enc.req = r)) :
    execEncode r s = .next s := by
  rw [execEncode, if_neg h]

/-- Everything ENCODE can do. -/
theorem execEncode_cases (r : EncRequest) (s : State) :
    (s.enc.phase = .busy ∧ s.enc.req = r ∧ execEncode r s = .next (respondEnc (encodeOp r) s)) ∨
      (¬ (s.enc.phase = .busy ∧ s.enc.req = r) ∧ execEncode r s = .next s) := by
  by_cases h : s.enc.phase = .busy ∧ s.enc.req = r
  · exact .inl ⟨h.1, h.2, execEncode_busy h.1 h.2⟩
  · exact .inr ⟨h, execEncode_waits h⟩

theorem encodeOp_data_length (r : EncRequest) : (encodeOp r).data.length = 8 * r.data.length :=
  flatMap_eight_length encodeByte encodeByte_length r.data

/-- Element `8i + j` is the symbol of bit `7 - j` of byte `i` (R73). -/
theorem encodeOp_getElem? (r : EncRequest) (i j : Nat) (hj : j < 8) :
    (encodeOp r).data[8 * i + j]? = r.data[i]?.map fun b => sym (b.getLsbD (7 - j)) := by
  show (r.data.flatMap encodeByte)[8 * i + j]? = _
  rw [flatMap_eight_getElem? encodeByte encodeByte_length _ _ _ hj]
  cases r.data[i]? with
  | none => rfl
  | some b => exact encodeByte_getElem? b j hj

theorem encodeOp_alphabetic (r : EncRequest) : ∀ c ∈ (encodeOp r).data, alphabetic c := by
  intro c hc
  obtain ⟨b, -, hb⟩ := List.mem_flatMap.1 hc
  obtain ⟨p, -, rfl⟩ := List.mem_map.1 hb
  exact sym_alphabetic _

/-- While characters are left, a datapath step on track emits the next one and stays on track (R83). -/
theorem encInternal_emits {s : State} (hp : s.enc.phase = .busy) (hlen : s.enc.req.data.length = s.enc.req.len)
    (hP : s.enc.eP < 8) (ht : encOnTrack s.enc) (hlt : s.enc.eI < s.enc.req.len) :
    ∃ b, s.enc.req.data[s.enc.eI]? = some b ∧
      encInternal s = .next (s.setEnc (encAdvance s.enc (s.enc.eOut ++ [sym (bit b s.enc.eP)]))) ∧
      encOnTrack (encAdvance s.enc (s.enc.eOut ++ [sym (bit b s.enc.eP)])) := by
  obtain ⟨h1, h2, h3⟩ := ht
  have hb : s.enc.req.data[s.enc.eI]? = some (s.enc.req.data[s.enc.eI]'(hlen ▸ hlt)) := by simp [hlen, hlt]
  obtain ⟨b, hb⟩ : ∃ b, s.enc.req.data[s.enc.eI]? = some b := ⟨_, hb⟩
  have hout : s.enc.eOut.length = 8 * s.enc.eI + (7 - s.enc.eP) := by
    rw [h3, List.length_take, encodeOp_data_length, hlen]; omega
  have hread : inRead s.enc.req.len s.enc.req.data s.enc.eI = some b := inRead_eq_some.2 ⟨hlt, hb⟩
  refine ⟨b, hb, ?_, ?_⟩
  · rw [encInternal, if_pos hp, if_pos hlt, hread]
    simp only [← hout, outWrite_append]
  · have hnext : s.enc.eOut ++ [sym (bit b s.enc.eP)] =
        (encodeOp s.enc.req).data.take (8 * s.enc.eI + (7 - s.enc.eP) + 1) := by
      have hj : 7 - s.enc.eP < 8 := by omega
      have e : 7 - (7 - s.enc.eP) = s.enc.eP := by omega
      rw [List.take_add_one, encodeOp_getElem? _ _ _ hj, hb, h3, e, bit_eq_getLsbD]
      rfl
    unfold encAdvance
    by_cases h0 : s.enc.eP = 0
    · rw [if_pos h0]
      refine ⟨by simp only; omega, fun _ => rfl, ?_⟩
      simp only [hnext]
      congr 1; omega
    · rw [if_neg h0]
      refine ⟨by simp only; omega, fun h => absurd h (by simp only; omega), ?_⟩
      simp only [hnext]
      congr 1; omega

/-- At the end, a datapath step on track responds with `F_ENC` of the request (R84). -/
theorem encInternal_completes {s : State} (hp : s.enc.phase = .busy)
    (hlen : s.enc.req.data.length = s.enc.req.len) (ht : encOnTrack s.enc) (he : s.enc.eI = s.enc.req.len) :
    encInternal s = .next (respondEnc (encodeOp s.enc.req) s) := by
  obtain ⟨-, h2, h3⟩ := ht
  have hall : s.enc.eOut = (encodeOp s.enc.req).data := by
    rw [h3, List.take_of_length_le]
    rw [encodeOp_data_length, hlen, he]; omega
  rw [encInternal, if_pos hp, if_neg (by omega), if_pos he, hall]
  rfl

end Sys2Proof.Machine
end

