-- ==== Sys2Proof/Laws/Ops.lean ====
section
/-! SUPPORT. What each shared operation of the transaction protocol answers. -/

namespace Sys2Proof.Machine

theorem acceptEnc_idle {s : State} {r : EncRequest} {rest : List EncRequest} (hp : s.enc.phase = .idle)
    (ho : s.encOffers = r :: rest) : acceptEnc s = takeEncRequest r (s.setEncOffers rest) := by
  unfold acceptEnc; rw [hp, ho]

theorem acceptEnc_holds {s : State} (hp : s.enc.phase ≠ .idle) : acceptEnc s = s := by
  unfold acceptEnc
  split
  · next h _ => exact absurd h hp
  · rfl

theorem acceptDec_idle {s : State} {r : DecRequest} {rest : List DecRequest} (hp : s.dec.phase = .idle)
    (ho : s.decOffers = r :: rest) : acceptDec s = takeDecRequest r (s.setDecOffers rest) := by
  unfold acceptDec; rw [hp, ho]

theorem acceptDec_holds {s : State} (hp : s.dec.phase ≠ .idle) : acceptDec s = s := by
  unfold acceptDec
  split
  · next h _ => exact absurd h hp
  · rfl

@[simp] theorem recordResponse_pending {α β : Type} (p : β) (r : α) (rest : List (α × Option β)) :
    recordResponse p ((r, none) :: rest) = (r, some p) :: rest := rfl

theorem deliverEnc_done {s : State} (hp : s.enc.phase = .done) :
    deliverEnc s = (s.setEnc { s.enc with phase := .idle }).setEncLog (recordResponse s.enc.resp s.encLog) := by
  rw [deliverEnc, if_pos hp]

theorem deliverEnc_waits {s : State} (hp : s.enc.phase ≠ .done) : deliverEnc s = s := by
  rw [deliverEnc, if_neg hp]

theorem deliverDec_done {s : State} (hp : s.dec.phase = .done) :
    deliverDec s = (s.setDec { s.dec with phase := .idle }).setDecLog (recordResponse s.dec.resp s.decLog) := by
  rw [deliverDec, if_pos hp]

theorem deliverDec_waits {s : State} (hp : s.dec.phase ≠ .done) : deliverDec s = s := by
  rw [deliverDec, if_neg hp]

/-- A request accepted and not yet answered adds no response to what the host has seen (R34). -/
@[simp] theorem delivered_pending {α β : Type} (r : α) (log : List (α × Option β)) :
    delivered ((r, none) :: log) = delivered log := by simp [delivered]

/-- A request answered adds its response, last (R46). -/
@[simp] theorem delivered_answered {α β : Type} (r : α) (p : β) (log : List (α × Option β)) :
    delivered ((r, some p) :: log) = delivered log ++ [p] := by simp [delivered]

@[simp] theorem respondEnc_phase (p : EncResponse) (s : State) : (respondEnc p s).enc.phase = .done := rfl
@[simp] theorem respondEnc_resp (p : EncResponse) (s : State) : (respondEnc p s).enc.resp = p := rfl
@[simp] theorem respondEnc_dec (p : EncResponse) (s : State) : (respondEnc p s).dec = s.dec := rfl
@[simp] theorem respondDec_phase (p : DecResponse) (s : State) : (respondDec p s).dec.phase = .done := rfl
@[simp] theorem respondDec_resp (p : DecResponse) (s : State) : (respondDec p s).dec.resp = p := rfl
@[simp] theorem respondDec_enc (p : DecResponse) (s : State) : (respondDec p s).enc = s.enc := rfl

@[simp] theorem resetStep_enc_phase (s : State) : (resetStep s).enc.phase = .idle := rfl
@[simp] theorem resetStep_dec_phase (s : State) : (resetStep s).dec.phase = .idle := rfl
@[simp] theorem resetStep_encLog (s : State) : (resetStep s).encLog = s.encLog := rfl
@[simp] theorem resetStep_decLog (s : State) : (resetStep s).decLog = s.decLog := rfl
@[simp] theorem resetStep_encOffers (s : State) : (resetStep s).encOffers = s.encOffers := rfl
@[simp] theorem resetStep_decOffers (s : State) : (resetStep s).decOffers = s.decOffers := rfl
@[simp] theorem resetStep_agenda (s : State) : (resetStep s).agenda = s.agenda := rfl
@[simp] theorem resetStep_cfg (s : State) : (resetStep s).cfg = s.cfg := rfl

end Sys2Proof.Machine
end

