-- ==== Sys2Proof/Laws/Symbol.lean ====
section
/-! SUPPORT. What each symbol does where DEC validates it, and that it does nothing elsewhere. -/

namespace Sys2Proof.Machine

theorem decSees_iff (c : Chr) (s : State) :
    decSees c s = true ↔ s.dec.phase = .busy ∧ s.dec.dStep = .validate ∧
      s.dec.dK < s.dec.req.len ∧ s.dec.req.data[s.dec.dK]? = some c := by
  simp only [decSees, Bool.and_eq_true, beq_iff_eq, inRead_eq_some, and_assoc]

theorem execSymHigh_sees {s : State} (h : decSees high s = true) :
    execSymHigh s = .next (pushBit true s) := by rw [execSymHigh, if_pos h]

theorem execSymHigh_waits {s : State} (h : ¬ decSees high s = true) : execSymHigh s = .next s := by
  rw [execSymHigh, if_neg h]

theorem execSymLow_sees {s : State} (h : decSees low s = true) :
    execSymLow s = .next (pushBit false s) := by rw [execSymLow, if_pos h]

theorem execSymLow_waits {s : State} (h : ¬ decSees low s = true) : execSymLow s = .next s := by
  rw [execSymLow, if_neg h]

theorem execSymInvalid_sees {c : Chr} {s : State} (h : decSees c s = true) (hc : ¬ alphabetic c) :
    execSymInvalid c s = .next (raiseError (.invalidCharacter s.dec.dK c) s) := by
  rw [execSymInvalid, if_pos]
  simp [h, classify_of_offender hc]

theorem execSymInvalid_waits {c : Chr} {s : State} (h : ¬ (decSees c s = true ∧ ¬ alphabetic c)) :
    execSymInvalid c s = .next s := by
  rw [execSymInvalid, if_neg]
  simp only [Bool.and_eq_true, beq_iff_eq, classify_invalid_iff]
  rintro ⟨h1, h2, h3⟩
  exact h ⟨h1, fun ha => ha.elim h2 h3⟩

/-- The character DEC validates next, run as the row it selects (R87, R88, R104). -/
theorem exec_symInstr {c : Chr} {s : State} (h : decSees c s = true) :
    exec (symInstr c) s =
      if alphabetic c then .next (pushBit (c == high) s)
      else .next (raiseError (.invalidCharacter s.dec.dK c) s) := by
  rw [symInstr_eq]
  by_cases h1 : c = high
  · subst h1
    rw [if_pos rfl, if_pos (.inl rfl), beq_self_eq_true]
    exact execSymHigh_sees h
  · by_cases h2 : c = low
    · subst h2
      rw [if_neg h1, if_pos rfl, if_pos (.inr rfl), beq_eq_false_iff_ne.2 h1]
      exact execSymLow_sees h
    · have ha : ¬ alphabetic c := fun ha => ha.elim h1 h2
      rw [if_neg h1, if_neg h2, if_neg ha]
      exact execSymInvalid_sees h ha

end Sys2Proof.Machine
end

