-- ==== Sys2Proof/Laws/Events.lean ====
section
/-! SUPPORT. Everything a move can do, once: `runEvent_effect`. Invariants are derived from it. -/

namespace Sys2Proof.Machine

/-- The changes of state the moves other than reset make, each with the condition it is made under. -/
inductive Effect (s : State) : State → Prop
  /-- The move was not enabled (R18, R22, R126). -/
  | none : Effect s s
  | offerEnc (r : EncRequest) (hr : r.admitted s.cfg = true) : Effect s (offerEnc r s)
  | offerDec (r : DecRequest) (hr : r.admitted s.cfg = true) : Effect s (offerDec r s)
  | acceptEnc (r : EncRequest) (rest : List EncRequest) (hp : s.enc.phase = .idle)
      (ho : s.encOffers = r :: rest) : Effect s (takeEncRequest r (s.setEncOffers rest))
  | acceptDec (r : DecRequest) (rest : List DecRequest) (hp : s.dec.phase = .idle)
      (ho : s.decOffers = r :: rest) : Effect s (takeDecRequest r (s.setDecOffers rest))
  | computeEnc (hp : s.enc.phase = .busy) : Effect s (respondEnc (encodeOp s.enc.req) s)
  | computeDec (hp : s.dec.phase = .busy) : Effect s (respondDec (decodeOp s.dec.req) s)
  | emit (b : Byte) (out : List Chr) (hp : s.enc.phase = .busy) (hlt : s.enc.eI < s.enc.req.len)
      (hb : s.enc.req.data[s.enc.eI]? = some b)
      (ho : outWrite s.enc.eOut (8 * s.enc.eI + (7 - s.enc.eP)) (sym (bit b s.enc.eP)) = some out) :
      Effect s (s.setEnc (encAdvance s.enc out))
  | completeEnc (hp : s.enc.phase = .busy) (he : s.enc.eI = s.enc.req.len) :
      Effect s (respondEnc ⟨8 * s.enc.req.len, s.enc.eOut⟩ s)
  | scanned (hp : s.dec.phase = .busy) (hs : s.dec.dStep = .validate) (he : s.dec.dK = s.dec.req.len) :
      Effect s (decScanned s)
  | push (c : Chr) (hc : decSees c s = true) (ha : alphabetic c) : Effect s (pushBit (c == high) s)
  | offender (c : Chr) (hc : decSees c s = true) (ha : ¬ alphabetic c) :
      Effect s (raiseError (.invalidCharacter s.dec.dK c) s)
  | lengthPassed (hp : s.dec.phase = .busy) (hs : s.dec.dStep = .checklen) (hm : s.dec.req.len % 8 = 0) :
      Effect s (s.setDec { s.dec with dStep := .pack })
  | lengthFailed (hp : s.dec.phase = .busy) (hs : s.dec.dStep = .checklen) (hm : s.dec.req.len % 8 ≠ 0) :
      Effect s (raiseError (.invalidLength s.dec.req.len) s)
  | pack (out : List Byte) (hp : s.dec.phase = .busy) (hs : s.dec.dStep = .pack)
      (hg : s.dec.dG ≠ s.dec.req.len / 8) (hb : 8 * s.dec.dG + 7 < s.dec.dBits.length)
      (ho : outWrite s.dec.dOut s.dec.dG (pack (groupAt s.dec.dBits s.dec.dG)) = some out) :
      Effect s (s.setDec { s.dec with
        dAcc := Machine.pack (groupAt s.dec.dBits s.dec.dG), dOut := out, dG := s.dec.dG + 1 })
  | completeDec (hp : s.dec.phase = .busy) (hs : s.dec.dStep = .pack) (hg : s.dec.dG = s.dec.req.len / 8) :
      Effect s (respondDec (.ok (s.dec.req.len / 8) s.dec.dOut) s)
  | deliverEnc (hp : s.enc.phase = .done) : Effect s (deliverEnc s)
  | deliverDec (hp : s.dec.phase = .done) : Effect s (deliverDec s)

theorem hostOffer_effect {w : CodeWord} {s t : State} (h : hostOffer w s = .next t) : Effect s t := by
  unfold hostOffer at h
  split at h
  · next r hr => cases h; exact .offerEnc r (decode_ok_encode hr).2
  · next r hr => cases h; exact .offerDec r (decode_ok_decode hr).2
  · cases h
  · cases h

theorem acceptEnc_effect (s : State) : Effect s (acceptEnc s) := by
  unfold acceptEnc
  split
  · next r rest hp ho => exact .acceptEnc r rest hp ho
  · exact .none

theorem acceptDec_effect (s : State) : Effect s (acceptDec s) := by
  unfold acceptDec
  split
  · next r rest hp ho => exact .acceptDec r rest hp ho
  · exact .none

/-- ENC's compute step (R20). -/
theorem computeEnc_eq {s : State} (hp : s.enc.phase = .busy) (hr : s.enc.req.admitted s.cfg = true) :
    computeEnc s = .next (respondEnc (encodeOp s.enc.req) s) := by
  rw [computeEnc, if_pos hp, runWord, decode_of_admitted_enc hr]
  exact execEncode_busy hp rfl

/-- DEC's compute step (R20). -/
theorem computeDec_eq {s : State} (hp : s.dec.phase = .busy) (hr : s.dec.req.admitted s.cfg = true) :
    computeDec s = .next (respondDec (decodeOp s.dec.req) s) := by
  rw [computeDec, if_pos hp, runWord, decode_of_admitted_dec hr]
  exact execDecode_busy hp rfl

theorem computeEnc_effect {s t : State} (h : computeEnc s = .next t) : Effect s t := by
  by_cases hp : s.enc.phase = .busy
  · by_cases hr : s.enc.req.admitted s.cfg = true
    · rw [computeEnc_eq hp hr] at h
      cases h; exact .computeEnc hp
    · rw [computeEnc, if_pos hp, runWord, decode_encode_command] at h
      rw [EncRequest.admitted_iff] at hr
      split at h
      · next i hi =>
        split at hi
        · split at hi
          · next h1 h2 => exact absurd ⟨h2, h1⟩ hr
          · cases hi
        · cases hi
      · cases h
  · rw [computeEnc, if_neg hp] at h
    cases h; exact .none

theorem computeDec_effect {s t : State} (h : computeDec s = .next t) : Effect s t := by
  by_cases hp : s.dec.phase = .busy
  · by_cases hr : s.dec.req.admitted s.cfg = true
    · rw [computeDec_eq hp hr] at h
      cases h; exact .computeDec hp
    · rw [computeDec, if_pos hp, runWord, decode_decode_command] at h
      rw [DecRequest.admitted_iff] at hr
      split at h
      · next i hi =>
        split at hi
        · split at hi
          · next h1 h2 => exact absurd ⟨h2, h1⟩ hr
          · cases hi
        · cases hi
      · cases h
  · rw [computeDec, if_neg hp] at h
    cases h; exact .none

theorem encInternal_effect {s t : State} (h : encInternal s = .next t) : Effect s t := by
  unfold encInternal at h
  split at h
  · next hp =>
    split at h
    · next hlt =>
      split at h
      · cases h
      · next b hb =>
        split at h
        · cases h
        · next out ho => cases h; exact .emit b out hp hlt (inRead_eq_some.1 hb).2 ho
    · split at h
      · next he => cases h; exact .completeEnc hp he
      · cases h; exact .none
  · cases h; exact .none

/-- A VALIDATE step with a character before it runs that character's row (R104). -/
theorem decValidate_sees {c : Chr} {s : State} (h : decSees c s = true) :
    decValidate s = exec (symInstr c) s := by
  obtain ⟨-, -, hlt, hc⟩ := (decSees_iff c s).1 h
  rw [decValidate, if_neg (by omega), inRead_eq_some.2 ⟨hlt, hc⟩]
  simp only [runWord, decode_symbolWord]

theorem decInternal_effect {s t : State} (h : decInternal s = .next t) : Effect s t := by
  unfold decInternal at h
  split at h
  · next hp =>
    split at h
    · next hs =>
      by_cases he : s.dec.dK = s.dec.req.len
      · rw [decValidate, if_pos he] at h
        cases h; exact .scanned hp hs he
      · cases hr : inRead s.dec.req.len s.dec.req.data s.dec.dK with
        | none => rw [decValidate, if_neg he, hr] at h; cases h
        | some c =>
          obtain ⟨hlt, hc⟩ := inRead_eq_some.1 hr
          have hsee := (decSees_iff c s).2 ⟨hp, hs, hlt, hc⟩
          rw [decValidate_sees hsee, exec_symInstr hsee] at h
          split at h
          · next ha => cases h; exact .push c hsee ha
          · next ha => cases h; exact .offender c hsee ha
    · next hs =>
      cases h
      unfold decCheckLen
      split
      · next hl => exact .lengthPassed hp hs ((lengthOk_iff _).1 hl)
      · next hl => exact .lengthFailed hp hs fun hm => hl ((lengthOk_iff _).2 hm)
    · next hs =>
      unfold decPack at h
      split at h
      · next hg => cases h; exact .completeDec hp hs hg
      · next hg =>
        split at h
        · next hb =>
          split at h
          · cases h
          · next out ho => cases h; exact .pack out hp hs hg hb ho
        · cases h
  · cases h; exact .none

theorem deliverEnc_effect (s : State) : Effect s (deliverEnc s) := by
  by_cases hp : s.enc.phase = .done
  · exact .deliverEnc hp
  · rw [deliverEnc, if_neg hp]; exact .none

theorem deliverDec_effect (s : State) : Effect s (deliverDec s) := by
  by_cases hp : s.dec.phase = .done
  · exact .deliverDec hp
  · rw [deliverDec, if_neg hp]; exact .none

/-- If a move answers a next state, it was the reset step or made one of these changes. -/
theorem runEvent_effect {e : Event} {s t : State} (h : runEvent e s = .next t) :
    (e = .reset ∧ t = resetStep s) ∨ Effect s t := by
  unfold runEvent at h
  split at h
  · exact .inr (hostOffer_effect h)
  · cases h; exact .inr (acceptEnc_effect s)
  · cases h; exact .inr (acceptDec_effect s)
  · exact .inr (computeEnc_effect h)
  · exact .inr (computeDec_effect h)
  · exact .inr (encInternal_effect h)
  · exact .inr (decInternal_effect h)
  · cases h; exact .inr (deliverEnc_effect s)
  · cases h; exact .inr (deliverDec_effect s)
  · cases h; exact .inl ⟨rfl, rfl⟩

/-! ## Which move is next -/

theorem nextMove_cons {s : State} {e : Event} {rest : List Event} (h : s.agenda = e :: rest) :
    nextMove s = some (e, rest) := by unfold nextMove; rw [h]

theorem nextMove_nil {s : State} (h : s.agenda = []) : nextMove s = (ownMove s).map fun e => (e, []) := by
  unfold nextMove; rw [h]

/-- The next move is the agenda's, or with none left the block's own. -/
theorem nextMove_some {s : State} {e : Event} {rest : List Event} (h : nextMove s = some (e, rest)) :
    s.agenda = e :: rest ∨ (s.agenda = [] ∧ rest = [] ∧ ownMove s = some e) := by
  cases ha : s.agenda with
  | cons e' rest' => rw [nextMove_cons ha] at h; cases h; exact .inl rfl
  | nil =>
    rw [nextMove_nil ha] at h
    obtain ⟨e', he, h⟩ := Option.map_eq_some_iff.1 h
    cases h
    exact .inr ⟨rfl, rfl, he⟩

/-- The block's own moves are compute and accept steps of an enabled unit. -/
theorem ownMove_some {s : State} {e : Event} (h : ownMove s = some e) :
    (e = .compute .enc ∧ s.enc.phase = .busy) ∨ (e = .compute .dec ∧ s.dec.phase = .busy) ∨
      (e = .accept .enc ∧ s.enc.phase = .idle ∧ s.encOffers ≠ []) ∨
      (e = .accept .dec ∧ s.dec.phase = .idle ∧ s.decOffers ≠ []) := by
  unfold ownMove at h
  split at h
  · next hp => cases h; exact .inl ⟨rfl, hp⟩
  · split at h
    · next hp => cases h; exact .inr (.inl ⟨rfl, hp⟩)
    · split at h
      · next hp => cases h; exact .inr (.inr (.inl ⟨rfl, hp⟩))
      · split at h
        · next hp => cases h; exact .inr (.inr (.inr ⟨rfl, hp⟩))
        · cases h

/-- The block never resets itself. -/
theorem nextMove_reset {s : State} {rest : List Event} (h : nextMove s = some (.reset, rest)) :
    s.agenda = .reset :: rest := by
  rcases nextMove_some h with h | ⟨-, -, h⟩
  · exact h
  · rcases ownMove_some h with h | h | h | h <;> cases h.1

/-- An offer is never the block's own move, and no move appears that was not on the agenda. -/
theorem nextMove_offer {s : State} {e : Event} {rest : List Event} (h : nextMove s = some (e, rest)) (w : CodeWord) :
    (e = .offer w → Event.offer w ∈ s.agenda) ∧ (Event.offer w ∈ rest → Event.offer w ∈ s.agenda) := by
  rcases nextMove_some h with ha | ⟨-, rfl, ho⟩
  · rw [ha]
    exact ⟨fun he => he ▸ List.mem_cons_self .., List.mem_cons_of_mem _⟩
  · refine ⟨fun he => ?_, fun hm => nomatch hm⟩
    subst he
    rcases ownMove_some ho with h | h | h | h <;> cases h.1

/-- A step makes the next move and its change; where there is none it changes nothing. -/
theorem step_effect {s t : State} (h : step s = .next t) :
    (nextMove s = none ∧ t = s) ∨
      ∃ e rest, nextMove s = some (e, rest) ∧
        ((e = .reset ∧ t = resetStep (s.setAgenda rest)) ∨ Effect (s.setAgenda rest) t) := by
  unfold step at h
  split at h
  · next ha => cases h; exact .inl ⟨ha, rfl⟩
  · next e rest ha => exact .inr ⟨e, rest, ha, runEvent_effect h⟩

/-- No change touches the build, the moves to come or the reset draws. -/
theorem effect_frame {s t : State} (e : Effect s t) :
    t.cfg = s.cfg ∧ t.agenda = s.agenda ∧ t.draws = s.draws := by
  cases e with
  | deliverEnc hp => rw [deliverEnc_done hp]; exact ⟨rfl, rfl, rfl⟩
  | deliverDec hp => rw [deliverDec_done hp]; exact ⟨rfl, rfl, rfl⟩
  | _ => exact ⟨rfl, rfl, rfl⟩

theorem step_cons {s : State} {e : Event} {rest : List Event} (h : s.agenda = e :: rest) :
    step s = runEvent e (s.setAgenda rest) := by
  unfold step; rw [nextMove_cons h]

theorem step_of_nextMove {s : State} {e : Event} {rest : List Event} (h : nextMove s = some (e, rest)) :
    step s = runEvent e (s.setAgenda rest) := by
  unfold step; rw [h]

theorem step_waits {s : State} (h : nextMove s = none) : step s = .next s := by
  unfold step; rw [h]

/-- With no agenda left a step makes the block's own move. -/
theorem step_own {s : State} {e : Event} (ha : s.agenda = []) (h : ownMove s = some e) :
    step s = runEvent e s := by
  unfold step
  rw [nextMove_nil ha, h]
  show runEvent e (s.setAgenda []) = _
  rw [← ha]; rfl

end Sys2Proof.Machine
end

