-- ==== Sys2Proof/Laws/Invariant.lean ====
section
/-! SUPPORT. Small lemmas about the terms of Safety.lean: what the invariant says of each phase, which updates need
only a part of it checked again, and runs of several steps. -/

namespace Sys2Proof.Machine

/-- `2^POS_W = 8 * 2^(POS_W - 3)` in every build (R8). -/
theorem two_pow_posW {c : Config} (h : c.wf = true) : 2 ^ c.posW = 8 * 2 ^ c.encLenW := by
  have hw : 4 ≤ c.posW := by simpa [Config.wf] using h
  have e : c.posW = (c.posW - 3) + 3 := by omega
  conv => lhs; rw [e, Nat.pow_add]
  unfold Config.encLenW; omega

/-! ## Reading the invariant -/

theorem Inv.encBusy {s : State} (h : Inv s) (hp : s.enc.phase = .busy) :
    s.enc.req.admitted s.cfg = true ∧ s.encLog.head? = some (s.enc.req, none) ∧ encOnTrack s.enc := by
  have := h.encPhase; unfold encPhaseOk at this; rw [hp] at this; exact this

theorem Inv.decBusy {s : State} (h : Inv s) (hp : s.dec.phase = .busy) :
    s.dec.req.admitted s.cfg = true ∧ s.decLog.head? = some (s.dec.req, none) ∧ decOnTrack s.dec := by
  have := h.decPhase; unfold decPhaseOk at this; rw [hp] at this; exact this

theorem Inv.encDone {s : State} (h : Inv s) (hp : s.enc.phase = .done) :
    ∃ r, s.encLog.head? = some (r, none) ∧ s.enc.resp = encodeOp r := by
  have := h.encPhase; unfold encPhaseOk at this; rw [hp] at this; exact this

theorem Inv.decDone {s : State} (h : Inv s) (hp : s.dec.phase = .done) :
    ∃ r, s.decLog.head? = some (r, none) ∧ s.dec.resp = decodeOp r := by
  have := h.decPhase; unfold decPhaseOk at this; rw [hp] at this; exact this

/-! ## Updates -/

theorem Inv.withAgenda {s : State} (h : Inv s) (l : List Event) : Inv (s.setAgenda l) :=
  ⟨h.build, h.encWide, h.decWide, h.offers, h.encPhase, h.decPhase, h.encRecord, h.decRecord⟩

theorem Inv.withEnc {s : State} (h : Inv s) (u : EncUnit) (hw : encWidths s.cfg u)
    (hp : encPhaseOk (s.setEnc u)) : Inv (s.setEnc u) :=
  ⟨h.build, hw, h.decWide, h.offers, hp, h.decPhase, h.encRecord, h.decRecord⟩

theorem Inv.withDec {s : State} (h : Inv s) (u : DecUnit) (hw : decWidths s.cfg u)
    (hp : decPhaseOk (s.setDec u)) : Inv (s.setDec u) :=
  ⟨h.build, h.encWide, hw, h.offers, h.encPhase, hp, h.encRecord, h.decRecord⟩

/-- Responding with the operation of the request keeps the invariant (R20, R21). -/
theorem Inv.respondEnc {s : State} (h : Inv s) {p : EncResponse} (hb : s.enc.phase = .busy)
    (hp : p = encodeOp s.enc.req) : Inv (respondEnc p s) :=
  h.withEnc _ h.encWide ⟨s.enc.req, (h.encBusy hb).2.1, hp⟩

theorem Inv.respondDec {s : State} (h : Inv s) {p : DecResponse} (hb : s.dec.phase = .busy)
    (hp : p = decodeOp s.dec.req) : Inv (respondDec p s) :=
  h.withDec _ h.decWide ⟨s.dec.req, (h.decBusy hb).2.1, hp⟩

/-- A VALIDATE step with an alphabet character before it stays on track (R104). -/
theorem decOnTrack_push {u : DecUnit} {c : Chr} (hs : u.dStep = .validate) (hlt : u.dK < u.req.len)
    (hc : u.req.data[u.dK]? = some c) (ha : alphabetic c) (ht : decOnTrack u) :
    decOnTrack { u with dBits := u.dBits ++ [c == high], dK := u.dK + 1 } := by
  obtain ⟨h1, h2, h3⟩ := ht
  rw [hs] at h3
  obtain ⟨-, hg, ho⟩ := h3
  refine ⟨?_, ?_, ?_⟩
  · intro d hd
    simp only [List.take_add_one, hc] at hd
    rcases List.mem_append.1 hd with hd | hd
    · exact h1 d hd
    · simp at hd; subst hd; exact ha
  · show u.dBits ++ _ = _
    rw [h2]; exact (take_add_one_bits _ _ _ hc).symm
  · simp only [hs]; exact ⟨by omega, hg, ho⟩

/-- How many datapath steps DEC has left at most, but for the one that completes (R107). -/
def decLeft (u : DecUnit) : Nat :=
  match u.dStep with
  | .validate => (u.req.len - u.dK) + 1 + 1 + u.req.len / 8
  | .checklen => 1 + u.req.len / 8
  | .pack => u.req.len / 8 - u.dG

/-- A datapath step of DEC on track responds with `F_DEC` of the request, or stays BUSY and on track with fewer steps
left (R104 to R107). -/
theorem decInternal_track {s : State} (hp : s.dec.phase = .busy)
    (hlen : s.dec.req.data.length = s.dec.req.len) (ht : decOnTrack s.dec) :
    decInternal s = .next (respondDec (decodeOp s.dec.req) s) ∨
      ∃ u, decInternal s = .next (s.setDec u) ∧ u.phase = .busy ∧ u.req = s.dec.req ∧ decOnTrack u ∧
        decLeft u < decLeft s.dec := by
  unfold decInternal
  rw [if_pos hp]
  have ht0 := ht
  obtain ⟨h1, h2, h3⟩ := ht
  cases hs : s.dec.dStep with
  | validate =>
    rw [hs] at h3
    obtain ⟨hk, hg, ho⟩ := h3
    simp only
    by_cases he : s.dec.dK = s.dec.req.len
    · right
      refine ⟨{ s.dec with dStep := .checklen }, ?_, hp, rfl, ⟨h1, h2, he, hg, ho⟩, ?_⟩
      · rw [decValidate, if_pos he]; rfl
      · simp only [decLeft, hs]; omega
    · have hlt : s.dec.dK < s.dec.req.len := by omega
      obtain ⟨c, hc⟩ : ∃ c, s.dec.req.data[s.dec.dK]? = some c := ⟨_, List.getElem?_eq_getElem (by omega)⟩
      have hsee := (decSees_iff c s).2 ⟨hp, hs, hlt, hc⟩
      rw [decValidate_sees hsee, exec_symInstr hsee]
      by_cases hac : alphabetic c
      · right
        rw [if_pos hac]
        exact ⟨{ s.dec with dBits := s.dec.dBits ++ [c == high], dK := s.dec.dK + 1 }, rfl, hp, rfl,
          decOnTrack_push hs hlt hc hac ht0, by simp only [decLeft, hs]; omega⟩
      · left
        rw [if_neg hac, decodeOp_badChar hc hac]
        · rfl
        · intro j d hj hd
          refine h1 d (List.mem_of_getElem? (i := j) ?_)
          rw [List.getElem?_take, if_pos hj, hd]
  | checklen =>
    rw [hs] at h3
    obtain ⟨hk, hg, ho⟩ := h3
    simp only
    unfold decCheckLen
    have hall : s.dec.req.data.take s.dec.dK = s.dec.req.data := List.take_of_length_le (by omega)
    by_cases hm : s.dec.req.len % 8 = 0
    · right
      rw [if_pos ((lengthOk_iff _).2 hm)]
      refine ⟨_, rfl, hp, rfl, ⟨h1, h2, hk, hm, by simp only; omega, ?_⟩, ?_⟩
      · simp only [ho, hg]; rfl
      · simp only [decLeft, hs]; omega
    · left
      rw [if_neg (fun h => hm ((lengthOk_iff _).1 h)), decodeOp_badLength (by rw [← hall]; exact h1) hm]; rfl
  | pack =>
    simp only
    rw [hs] at h3
    by_cases hg : s.dec.dG = s.dec.req.len / 8
    · left; exact decPack_completes hlen hs ht0 hg
    · right
      obtain ⟨e, ht'⟩ := decPack_packs hlen hs ht0 (by omega)
      exact ⟨_, e, hp, rfl, ht', by simp only [decLeft, hs]; omega⟩

/-! ## Runs -/

theorem stepN_one (s : State) : stepN 1 s = step s := by
  unfold stepN
  cases step s <;> rfl

/-- A run of `a + b` steps is `a` steps and then `b` more. -/
theorem stepN_add (a b : Nat) (s t : State) (h : stepN a s = .next t) : stepN (a + b) s = stepN b t := by
  induction a generalizing s with
  | zero => cases h; rw [Nat.zero_add]
  | succ a ih =>
    rw [Nat.add_right_comm, stepN]
    rw [stepN] at h
    split at h
    · next u hu => exact ih u h
    · cases h
    · cases h

end Sys2Proof.Machine
end

