-- ==== Sys2Proof/Laws/PerInstr.lean ====
section
/-! SUPPORT. What is said of each instruction's encoding, one lemma a constructor. -/

namespace Sys2Proof

/-- Every field and element of a word has a value its width holds (R54, R56). -/
def CodeWord.fits : CodeWord → Bool
  | .command sel m => decide (sel.value < 2 ^ sel.width) &&
      (m.fields ++ m.elems).all fun f => decide (f.value < 2 ^ f.width)
  | .symbol f => decide (f.value < 2 ^ f.width)

theorem encodeElems_fit {w : Nat} (xs : List (BitVec w)) :
    (encodeElems xs).all (fun f => decide (f.value < 2 ^ f.width)) = true := by
  simp only [encodeElems, List.all_map, List.all_eq_true]
  intro x _
  exact decide_eq_true x.isLt

theorem symbolWord_fits (c : Chr) : (symbolWord c).fits = true := decide_eq_true c.isLt

end Sys2Proof

namespace Sys2Proof.Laws.EncodeFits

/-- The word of a well-formed instruction keeps every field within its width, in every build. -/
def Statement (i : Instr) : Prop :=
  ∀ c : Config, wellFormed c i = true → (Sys2Proof.encode c i).fits = true

theorem encode (r : EncRequest) : Statement (.encode r) := by
  intro c h
  have hl := ((EncRequest.admitted_iff c r).1 h).2
  simp [Sys2Proof.encode, CodeWord.fits, hl]
  exact List.all_eq_true.1 (encodeElems_fit r.data) |> fun h f hf => by simpa using h f hf

theorem decode (r : DecRequest) : Statement (.decode r) := by
  intro c h
  have hl := ((DecRequest.admitted_iff c r).1 h).2
  simp [Sys2Proof.encode, CodeWord.fits, hl]
  exact List.all_eq_true.1 (encodeElems_fit r.data) |> fun h f hf => by simpa using h f hf

theorem symHigh : Statement .symHigh := fun _ _ => symbolWord_fits high

theorem symLow : Statement .symLow := fun _ _ => symbolWord_fits low

theorem symInvalid (ch : Chr) : Statement (.symInvalid ch) := fun _ _ => symbolWord_fits ch

end Sys2Proof.Laws.EncodeFits
end

