-- ==== Sys2Proof/Laws/Units.lean ====
section
/-! SUPPORT. The compute and datapath steps as functions of their unit alone (R15, R20), and what a move leaves of the
agenda, of the unit it does not belong to and of what the host has seen. -/

namespace Sys2Proof.Machine

/-- The outcome of a step that changes one unit: `put` of the new unit, or the stop. -/
def putUnit {α : Type} (x : Except (Fault ⊕ Refusal) α) (put : α → State) : Host.Outcome State Fault Refusal :=
  match x with
  | .ok a => .next (put a)
  | .error (.inl f) => .fault f
  | .error (.inr r) => .refused r

theorem putUnit_next {α : Type} {x : Except (Fault ⊕ Refusal) α} {put : α → State} {t : State}
    (h : putUnit x put = .next t) : ∃ a, x = .ok a ∧ t = put a := by
  unfold putUnit at h
  split at h
  · cases h; exact ⟨_, rfl, rfl⟩
  · cases h
  · cases h

/-! ## ENC -/

/-- ENC's compute step, of ENC and the build alone. -/
def encComputed (c : Config) (u : EncUnit) : Except (Fault ⊕ Refusal) EncUnit :=
  if u.phase = .busy then
    if u.req.len < 2 ^ c.encLenW then
      if u.req.data.length = u.req.len then .ok { u with resp := encodeOp u.req, phase := .done }
      else .error (.inr (.rejected .framing))
    else .error (.inr (.rejected .lengthUnrepresentable))
  else .ok u

theorem computeEnc_unit (s : State) : computeEnc s = putUnit (encComputed s.cfg s.enc) s.setEnc := by
  unfold encComputed
  by_cases hp : s.enc.phase = .busy
  · rw [computeEnc, if_pos hp, if_pos hp, runWord, decode_encode_command]
    by_cases g1 : s.enc.req.len < 2 ^ s.cfg.encLenW
    · by_cases g2 : s.enc.req.data.length = s.enc.req.len
      · rw [if_pos g1, if_pos g2, if_pos g1, if_pos g2]; exact execEncode_busy hp rfl
      · rw [if_pos g1, if_neg g2, if_pos g1, if_neg g2]; rfl
    · rw [if_neg g1, if_neg g1]; rfl
  · rw [computeEnc, if_neg hp, if_neg hp]; rfl

/-- ENC's datapath step, of ENC alone. -/
def encStepped (u : EncUnit) : Except (Fault ⊕ Refusal) EncUnit :=
  if u.phase = .busy then
    if u.eI < u.req.len then
      match inRead u.req.len u.req.data u.eI with
      | none => .error (.inl .inReadOutOfRange)
      | some b =>
        match outWrite u.eOut (8 * u.eI + (7 - u.eP)) (sym (bit b u.eP)) with
        | none => .error (.inl .outWriteOutOfOrder)
        | some out => .ok (encAdvance u out)
    else if u.eI = u.req.len then .ok { u with resp := ⟨8 * u.req.len, u.eOut⟩, phase := .done }
    else .ok u
  else .ok u

theorem encInternal_unit (s : State) : encInternal s = putUnit (encStepped s.enc) s.setEnc := by
  unfold encInternal encStepped
  by_cases hp : s.enc.phase = .busy
  · rw [if_pos hp, if_pos hp]
    by_cases hlt : s.enc.eI < s.enc.req.len
    · rw [if_pos hlt, if_pos hlt]
      cases inRead s.enc.req.len s.enc.req.data s.enc.eI with
      | none => rfl
      | some b =>
        dsimp only
        cases outWrite s.enc.eOut (8 * s.enc.eI + (7 - s.enc.eP)) (sym (bit b s.enc.eP)) <;> rfl
    · rw [if_neg hlt, if_neg hlt]
      by_cases he : s.enc.eI = s.enc.req.len
      · rw [if_pos he, if_pos he]; rfl
      · rw [if_neg he, if_neg he]; rfl
  · rw [if_neg hp, if_neg hp]; rfl

/-! ## DEC -/

/-- DEC's compute step, of DEC and the build alone. -/
def decComputed (c : Config) (u : DecUnit) : Except (Fault ⊕ Refusal) DecUnit :=
  if u.phase = .busy then
    if u.req.len < 2 ^ c.posW then
      if u.req.data.length = u.req.len then .ok { u with resp := decodeOp u.req, phase := .done }
      else .error (.inr (.rejected .framing))
    else .error (.inr (.rejected .lengthUnrepresentable))
  else .ok u

theorem computeDec_unit (s : State) : computeDec s = putUnit (decComputed s.cfg s.dec) s.setDec := by
  unfold decComputed
  by_cases hp : s.dec.phase = .busy
  · rw [computeDec, if_pos hp, if_pos hp, runWord, decode_decode_command]
    by_cases g1 : s.dec.req.len < 2 ^ s.cfg.posW
    · by_cases g2 : s.dec.req.data.length = s.dec.req.len
      · rw [if_pos g1, if_pos g2, if_pos g1, if_pos g2]; exact execDecode_busy hp rfl
      · rw [if_pos g1, if_neg g2, if_pos g1, if_neg g2]; rfl
    · rw [if_neg g1, if_neg g1]; rfl
  · rw [computeDec, if_neg hp, if_neg hp]; rfl

/-- DEC's datapath step, of DEC alone. -/
def decStepped (u : DecUnit) : Except (Fault ⊕ Refusal) DecUnit :=
  if u.phase = .busy then
    match u.dStep with
    | .validate =>
      if u.dK = u.req.len then .ok { u with dStep := .checklen }
      else match inRead u.req.len u.req.data u.dK with
        | none => .error (.inl .inReadOutOfRange)
        | some c =>
          if alphabetic c then .ok { u with dBits := u.dBits ++ [c == high], dK := u.dK + 1 }
          else .ok { u with resp := .invalidCharacter u.dK c, phase := .done }
    | .checklen =>
      if lengthOk u.req.len then .ok { u with dStep := .pack }
      else .ok { u with resp := .invalidLength u.req.len, phase := .done }
    | .pack =>
      if u.dG = u.req.len / 8 then .ok { u with resp := .ok (u.req.len / 8) u.dOut, phase := .done }
      else if 8 * u.dG + 7 < u.dBits.length then
        match outWrite u.dOut u.dG (pack (groupAt u.dBits u.dG)) with
        | none => .error (.inl .outWriteOutOfOrder)
        | some out => .ok { u with dAcc := pack (groupAt u.dBits u.dG), dOut := out, dG := u.dG + 1 }
      else .error (.inl .bitOutOfRange)
  else .ok u

theorem decInternal_unit (s : State) : decInternal s = putUnit (decStepped s.dec) s.setDec := by
  unfold decInternal decStepped
  by_cases hp : s.dec.phase = .busy
  · rw [if_pos hp, if_pos hp]
    cases hs : s.dec.dStep with
    | validate =>
      simp only
      by_cases he : s.dec.dK = s.dec.req.len
      · rw [if_pos he, decValidate, if_pos he]; rfl
      · rw [if_neg he]
        cases hr : inRead s.dec.req.len s.dec.req.data s.dec.dK with
        | none => rw [decValidate, if_neg he, hr]; rfl
        | some c =>
          have hsee : decSees c s = true := (decSees_iff _ _).2 ⟨hp, hs, inRead_eq_some.1 hr⟩
          rw [decValidate_sees hsee, exec_symInstr hsee]
          simp only
          by_cases ha : alphabetic c
          · rw [if_pos ha, if_pos ha, putUnit, ← hs]; rfl
          · rw [if_neg ha, if_neg ha, putUnit, ← hs]; rfl
    | checklen =>
      simp only [decCheckLen]
      split
      · rfl
      · rw [putUnit, ← hs]; rfl
    | pack =>
      simp only [decPack]
      by_cases hg : s.dec.dG = s.dec.req.len / 8
      · rw [if_pos hg, if_pos hg, putUnit, ← hs]; rfl
      · rw [if_neg hg, if_neg hg]
        by_cases hb : 8 * s.dec.dG + 7 < s.dec.dBits.length
        · rw [if_pos hb, if_pos hb]
          cases outWrite s.dec.dOut s.dec.dG (pack (groupAt s.dec.dBits s.dec.dG)) with
          | none => rfl
          | some out => rw [← hs]; rfl
        · rw [if_neg hb, if_neg hb]; rfl
  · rw [if_neg hp, if_neg hp]; rfl

/-! ## Frames of the moves -/

/-- A move of a unit other than an accept step, a take or a reset changes that unit alone. -/
theorem runEvent_unitStep {e : Event} {s t : State} (h : runEvent e s = .next t) :
    (e = .compute .enc ∨ e = .internal .enc → t = s.setEnc t.enc) ∧
      (e = .compute .dec ∨ e = .internal .dec → t = s.setDec t.dec) := by
  constructor
  · rintro (rfl | rfl)
    · obtain ⟨u, -, rfl⟩ := putUnit_next ((computeEnc_unit s).symm.trans h); rfl
    · obtain ⟨u, -, rfl⟩ := putUnit_next ((encInternal_unit s).symm.trans h); rfl
  · rintro (rfl | rfl)
    · obtain ⟨u, -, rfl⟩ := putUnit_next ((computeDec_unit s).symm.trans h); rfl
    · obtain ⟨u, -, rfl⟩ := putUnit_next ((decInternal_unit s).symm.trans h); rfl

/-- A move that is none of ENC's, and no reset, leaves ENC as it is (R15). -/
theorem runEvent_enc_frame {e : Event} {s t : State} (h : runEvent e s = .next t) (h1 : e ≠ .accept .enc)
    (h2 : e ≠ .compute .enc) (h3 : e ≠ .internal .enc) (h4 : e ≠ .take .enc) (h5 : e ≠ .reset) : t.enc = s.enc := by
  cases e with
  | offer w =>
    simp only [runEvent, hostOffer] at h
    split at h
    · cases h; rfl
    · cases h; rfl
    · cases h
    · cases h
  | accept u =>
    cases u
    · exact absurd rfl h1
    · cases h; unfold acceptDec; split <;> rfl
  | compute u =>
    cases u
    · exact absurd rfl h2
    · rw [(runEvent_unitStep h).2 (.inl rfl)]; rfl
  | internal u =>
    cases u
    · exact absurd rfl h3
    · rw [(runEvent_unitStep h).2 (.inr rfl)]; rfl
  | take u =>
    cases u
    · exact absurd rfl h4
    · cases h; unfold deliverDec; split <;> rfl
  | reset => exact absurd rfl h5

/-- A move that is none of DEC's, and no reset, leaves DEC as it is (R15). -/
theorem runEvent_dec_frame {e : Event} {s t : State} (h : runEvent e s = .next t) (h1 : e ≠ .accept .dec)
    (h2 : e ≠ .compute .dec) (h3 : e ≠ .internal .dec) (h4 : e ≠ .take .dec) (h5 : e ≠ .reset) : t.dec = s.dec := by
  cases e with
  | offer w =>
    simp only [runEvent, hostOffer] at h
    split at h
    · cases h; rfl
    · cases h; rfl
    · cases h
    · cases h
  | accept u =>
    cases u
    · cases h; unfold acceptEnc; split <;> rfl
    · exact absurd rfl h1
  | compute u =>
    cases u
    · rw [(runEvent_unitStep h).1 (.inl rfl)]; rfl
    · exact absurd rfl h2
  | internal u =>
    cases u
    · rw [(runEvent_unitStep h).1 (.inr rfl)]; rfl
    · exact absurd rfl h3
  | take u =>
    cases u
    · cases h; unfold deliverEnc; split <;> rfl
    · exact absurd rfl h4
  | reset => exact absurd rfl h5

/-- No move reads or writes the agenda. -/
theorem runEvent_setAgenda {e : Event} {s t : State} (l : List Event) (h : runEvent e s = .next t) :
    runEvent e (s.setAgenda l) = .next (t.setAgenda l) := by
  cases e with
  | offer w =>
    simp only [runEvent, hostOffer, State.setAgenda_cfg] at h ⊢
    split at h
    · cases h; rfl
    · cases h; rfl
    · cases h
    · cases h
  | accept u =>
    cases u <;> cases h <;> refine congrArg Host.Outcome.next ?_
    · unfold acceptEnc; simp only [State.setAgenda_enc, State.setAgenda_encOffers]; split <;> rfl
    · unfold acceptDec; simp only [State.setAgenda_dec, State.setAgenda_decOffers]; split <;> rfl
  | compute u =>
    cases u
    · obtain ⟨u, hu, rfl⟩ := putUnit_next ((computeEnc_unit s).symm.trans h)
      exact (computeEnc_unit _).trans (congrArg (putUnit · _) hu)
    · obtain ⟨u, hu, rfl⟩ := putUnit_next ((computeDec_unit s).symm.trans h)
      exact (computeDec_unit _).trans (congrArg (putUnit · _) hu)
  | internal u =>
    cases u
    · obtain ⟨u, hu, rfl⟩ := putUnit_next ((encInternal_unit s).symm.trans h)
      exact (encInternal_unit _).trans (congrArg (putUnit · _) hu)
    · obtain ⟨u, hu, rfl⟩ := putUnit_next ((decInternal_unit s).symm.trans h)
      exact (decInternal_unit _).trans (congrArg (putUnit · _) hu)
  | take u =>
    cases u <;> cases h <;> refine congrArg Host.Outcome.next ?_
    · unfold deliverEnc
      by_cases hp : s.enc.phase = .done
      · rw [if_pos (by exact hp), if_pos hp]; rfl
      · rw [if_neg (by exact hp), if_neg hp]
    · unfold deliverDec
      by_cases hp : s.dec.phase = .done
      · rw [if_pos (by exact hp), if_pos hp]; rfl
      · rw [if_neg (by exact hp), if_neg hp]
  | reset => cases h; rfl

/-! ## When the host sees a response (R26, R34) -/

/-- No move but a take at a DONE ENC shows the host a response of ENC (R22, R34, R127). -/
theorem runEvent_deliveredEnc {e : Event} {s t : State} (h : runEvent e s = .next t)
    (he : e ≠ .take .enc ∨ s.enc.phase ≠ .done) : delivered t.encLog = delivered s.encLog := by
  cases e with
  | offer w => simp only [runEvent, hostOffer] at h; split at h <;> cases h <;> rfl
  | accept u =>
    cases u <;> cases h
    · unfold acceptEnc; split
      · exact delivered_pending _ _
      · rfl
    · unfold acceptDec; split <;> rfl
  | compute u =>
    cases u
    · rw [(runEvent_unitStep h).1 (.inl rfl)]; rfl
    · rw [(runEvent_unitStep h).2 (.inl rfl)]; rfl
  | internal u =>
    cases u
    · rw [(runEvent_unitStep h).1 (.inr rfl)]; rfl
    · rw [(runEvent_unitStep h).2 (.inr rfl)]; rfl
  | take u =>
    cases u <;> cases h
    · rw [deliverEnc_waits (he.resolve_left (· rfl))]
    · unfold deliverDec; split <;> rfl
  | reset => cases h; rfl

/-- No move but a take at a DONE DEC shows the host a response of DEC (R22, R34, R127). -/
theorem runEvent_deliveredDec {e : Event} {s t : State} (h : runEvent e s = .next t)
    (he : e ≠ .take .dec ∨ s.dec.phase ≠ .done) : delivered t.decLog = delivered s.decLog := by
  cases e with
  | offer w => simp only [runEvent, hostOffer] at h; split at h <;> cases h <;> rfl
  | accept u =>
    cases u <;> cases h
    · unfold acceptEnc; split <;> rfl
    · unfold acceptDec; split
      · exact delivered_pending _ _
      · rfl
  | compute u =>
    cases u
    · rw [(runEvent_unitStep h).1 (.inl rfl)]; rfl
    · rw [(runEvent_unitStep h).2 (.inl rfl)]; rfl
  | internal u =>
    cases u
    · rw [(runEvent_unitStep h).1 (.inr rfl)]; rfl
    · rw [(runEvent_unitStep h).2 (.inr rfl)]; rfl
  | take u =>
    cases u <;> cases h
    · unfold deliverEnc; split <;> rfl
    · rw [deliverDec_waits (he.resolve_left (· rfl))]
  | reset => cases h; rfl

end Sys2Proof.Machine
end

