-- ==== Sys2Proof/Tests/Slice0.lean ====
section
/-! SUPPORT. Tests of the model against the spec's own vectors (95_test_vectors.md), the ill-formed terms each check
refuses, and for every statement with hypotheses a concrete case that meets them all. -/

namespace Sys2Proof.Tests
open Sys2Proof.Machine

/-! ## Helpers -/

abbrev H : Chr := 0x000020#21
abbrev L : Chr := 0x00200B#21

/-- ENC BUSY with `bs` and DEC IDLE, in the build of width `w`. -/
def encBusy (w : Nat) (bs : List Byte) : State := takeEncRequest ⟨bs.length, bs⟩ (State.resetFor ⟨w⟩)

/-- DEC BUSY with `cs` and ENC IDLE. -/
def decBusy (w : Nat) (cs : List Chr) : State := takeDecRequest ⟨cs.length, cs⟩ (State.resetFor ⟨w⟩)

/-- The state an outcome goes on to. -/
def nextOf : Host.Outcome State Fault Refusal → Option State
  | .next t => some t
  | _ => none

/-- Why an outcome was refused. -/
def refusalOf : Host.Outcome State Fault Refusal → Option Refusal
  | .refused r => some r
  | _ => none

/-- The response ENC holds, DONE, after an outcome. -/
def encAnswer (o : Host.Outcome State Fault Refusal) : Option EncResponse :=
  (nextOf o).bind fun t => if t.enc.phase = .done then some t.enc.resp else none

/-- The response DEC holds, DONE, after an outcome. -/
def decAnswer (o : Host.Outcome State Fault Refusal) : Option DecResponse :=
  (nextOf o).bind fun t => if t.dec.phase = .done then some t.dec.resp else none

def errorOf {α : Type} : Except Reject α → Option Reject
  | .error e => some e
  | .ok _ => none

/-! ## WellFormed refuses (R19, R64, R133, R134), and so does the decoder, by name -/

theorem test_encode_miscounted : wellFormed ⟨4⟩ (.encode ⟨1, []⟩) = false := by decide
theorem test_encode_over_limit : wellFormed ⟨4⟩ (.encode ⟨2, [0xC3#8, 0x3C#8]⟩) = false := by decide
theorem test_decode_miscounted : wellFormed ⟨16⟩ (.decode ⟨8, List.replicate 7 H⟩) = false := by decide
theorem test_decode_over_limit : wellFormed ⟨4⟩ (.decode ⟨16, List.replicate 16 H⟩) = false := by decide
theorem test_invalid_is_not_high : wellFormed ⟨4⟩ (.symInvalid H) = false := by decide
theorem test_invalid_is_not_low : wellFormed ⟨4⟩ (.symInvalid L) = false := by decide

theorem test_reject_selector :
    errorOf (decode ⟨4⟩ (.command ⟨2, 0⟩ ⟨[⟨1, 0⟩], []⟩)) = some .selector := by decide
theorem test_reject_header : errorOf (decode ⟨4⟩ (.command ⟨1, 0⟩ ⟨[⟨4, 0⟩], []⟩)) = some .header := by decide
theorem test_reject_length :
    errorOf (decode ⟨4⟩ (.command ⟨1, 0⟩ ⟨[⟨1, 2⟩], [⟨8, 0xC3⟩, ⟨8, 0x3C⟩]⟩)) = some .lengthUnrepresentable := by
  decide
theorem test_reject_element :
    errorOf (decode ⟨4⟩ (.command ⟨1, 1⟩ ⟨[⟨4, 1⟩], [⟨8, 0x20⟩]⟩)) = some .element := by decide
theorem test_reject_framing :
    errorOf (decode ⟨4⟩ (.command ⟨1, 1⟩ ⟨[⟨4, 2⟩], [⟨21, 0x20⟩]⟩)) = some .framing := by decide
theorem test_reject_character : errorOf (decode ⟨4⟩ (.symbol ⟨21, 0x200000⟩)) = some .character := by decide

/-! ## Words written out from the spec's encodings (R55, R57, R59, R62) -/

theorem test_word_encode : decodeTableWord 8 0b0 = some (.encode ⟨0, []⟩) := by decide
theorem test_word_decode : decodeTableWord 8 0b1 = some (.decode ⟨0, []⟩) := by decide
theorem test_word_symHigh : decodeTableWord 24 0b000000000000000100000 = some .symHigh := by decide
theorem test_word_symLow : decodeTableWord 24 0b000000010000000001011 = some .symLow := by decide
theorem test_word_symInvalid : decodeTableWord 24 0x200C = some (.symInvalid 0x200C#21) := by decide

/-- P5, the ENC request of the smallest build: `len = 0b1, data = [0xC3]`. -/
theorem test_record_encode :
    (decode ⟨4⟩ (.command ⟨1, 0⟩ ⟨[⟨1, 0b1⟩], [⟨8, 0xC3⟩]⟩)).toOption = some (.encode ⟨1, [0xC3#8]⟩) := by decide

/-- A DECODE request of two characters, `POS_W = 16`: `len = 0x0002, data = [0x00200B, 0x000020]`. -/
theorem test_record_decode :
    (decode ⟨16⟩ (.command ⟨1, 1⟩ ⟨[⟨16, 2⟩], [⟨21, 0x00200B⟩, ⟨21, 0x000020⟩]⟩)).toOption =
      some (.decode ⟨2, [L, H]⟩) := by decide

/-! ## The rows run as the first instruction after reset -/

theorem test_first_encode :
    encAnswer (step (State.reset.withFetchWord 8 0)) = some ⟨0, []⟩ := by decide
theorem test_first_decode :
    decAnswer (step (State.reset.withFetchWord 8 1)) = some (.ok 0 []) := by decide
theorem test_first_symHigh :
    ((nextOf (step (State.reset.withFetchWord 24 0x20))).map fun t => t.dec.dBits) = some [true] := by decide
theorem test_first_symLow :
    ((nextOf (step (State.reset.withFetchWord 24 0x200B))).map fun t => t.dec.dBits) = some [false] := by decide
theorem test_first_symInvalid :
    decAnswer (step (State.reset.withFetchWord 24 0)) = some (.invalidCharacter 0 0#21) := by decide

/-! ## The spec's vectors -/

/-- V1: `ENCODE [10, 2]`. -/
theorem test_V1 : encAnswer (exec (.encode ⟨2, [10#8, 2#8]⟩) (encBusy 16 [10#8, 2#8])) =
    some ⟨16, [L, L, L, L, H, L, H, L, L, L, L, L, L, L, H, L]⟩ := by decide

/-- T9: the last internal step of `ENCODE [0x05]` before completion writes the eighth character of `LLLLLHLH`. -/
theorem test_T9 :
    ((nextOf (encInternal ((encBusy 16 [5#8]).setEnc
      { (encBusy 16 [5#8]).enc with eP := 0, eOut := [L, L, L, L, L, H, L] }))).map
        fun t => (t.enc.eI, t.enc.eP, t.enc.eOut)) = some (1, 7, [L, L, L, L, L, H, L, H]) := by decide

/-- V3: the characters of V1 decode to `OK [10, 2]`. -/
theorem test_V3 : decAnswer (exec (.decode ⟨16, [L, L, L, L, H, L, H, L, L, L, L, L, L, L, H, L]⟩)
    (decBusy 16 [L, L, L, L, H, L, H, L, L, L, L, L, L, L, H, L])) = some (.ok 2 [10#8, 2#8]) := by decide

/-- V4: the character error wins over the length error. -/
theorem test_V4 : decAnswer (exec (.decode ⟨7, [L, L, H, 0x79#21, 0x65#21, 0x65#21, 0x74#21]⟩)
    (decBusy 16 [L, L, H, 0x79#21, 0x65#21, 0x65#21, 0x74#21])) = some (.invalidCharacter 3 0x79#21) := by decide

/-- V7: `DECODE [H*7, L*8]`. -/
theorem test_V7 : decodeOp (charsRequest (List.replicate 7 H ++ List.replicate 8 L)) = .invalidLength 15 := by
  decide

/-- T8: step 1 of the trace, HIGH at position 0. -/
theorem test_T8_high : ((nextOf (exec .symHigh (decBusy 16 [H, L, 0x41#21, L]))).map
    fun t => (t.dec.dK, t.dec.dBits)) = some (1, [true]) := by decide

/-- DEC of T8 after step 1. -/
def t8After1 : State :=
  (decBusy 16 [H, L, 0x41#21, L]).setDec
    { (decBusy 16 [H, L, 0x41#21, L]).dec with dK := 1, dBits := [true] }

/-- T8: step 2, LOW at position 1. -/
theorem test_T8_low : ((nextOf (exec .symLow t8After1)).map fun t => (t.dec.dK, t.dec.dBits)) =
    some (2, [true, false]) := by decide

/-- T8: step 3, the offender at position 2. -/
theorem test_T8_invalid : decAnswer (exec (.symInvalid 0x41#21)
    (t8After1.setDec { t8After1.dec with dK := 2, dBits := [true, false] })) =
    some (.invalidCharacter 2 0x41#21) := by decide

/-- T8's second trace: the PACK step of `DECODE [L*7, H]` accumulates 0x01. -/
def t8Pack : State :=
  (decBusy 16 [L, L, L, L, L, L, L, H]).setDec { (decBusy 16 [L, L, L, L, L, L, L, H]).dec with
    dStep := .pack, dK := 8, dBits := [false, false, false, false, false, false, false, true] }

theorem test_T8_pack : ((nextOf (decInternal t8Pack)).map fun t => (t.dec.dAcc, t.dec.dG, t.dec.dOut)) =
    some (1#8, 1, [1#8]) := by decide

/-- P1: `ROUNDTRIP [0x48, 0x69]` decodes the characters the program gives for `r`. -/
theorem test_P1_roundTrip : roundTrip [0x48#8, 0x69#8] =
    [.encodeBytes [0x48#8, 0x69#8], .take .enc,
      .decodeChars [L, H, L, L, H, L, L, L, L, H, H, L, H, L, L, H], .take .dec] := by decide

/-- T7: an offer to a DONE unit is held. -/
theorem test_T7_held :
    (acceptEnc (offerEnc ⟨1, [2#8]⟩ (respondEnc ⟨0, []⟩ (State.resetFor ⟨16⟩)))).encOffers = [⟨1, [2#8]⟩] := by decide

/-- T7: 7 elements offered with `len = 8` are refused at the interface. -/
theorem test_T7_misframed :
    refusalOf (hostOffer (encode ⟨16⟩ (.decode ⟨8, List.replicate 7 H⟩)) (State.resetFor ⟨16⟩)) =
      some (.rejected .framing) := by decide

/-- R68, U6: a host that reads status `0b11` is at fault. -/
theorem test_reserved_status :
    (match hostReadsDec ⟨16⟩ ⟨[⟨2, 3⟩, ⟨16, 0⟩], []⟩ with | .fault f => some f | _ => none) =
      some Fault.reservedStatus := by decide

/-! ## Witnesses: states and operands that meet the hypotheses of each statement -/

theorem witness_DecodeAfterEncode :
    wellFormed ⟨4⟩ (.encode ⟨1, [0xC3#8]⟩) = true ∧ wellFormed ⟨4⟩ (.decode ⟨15, List.replicate 15 L⟩) = true ∧
    wellFormed ⟨4⟩ .symHigh = true ∧ wellFormed ⟨4⟩ .symLow = true ∧
    wellFormed ⟨4⟩ (.symInvalid 0x1FFFFF#21) = true := by decide

theorem witness_EncodeAfterDecode :
    (decode ⟨4⟩ (.command ⟨1, 1⟩ ⟨[⟨4, 1⟩], [⟨21, 0x41⟩]⟩)).toOption = some (.decode ⟨1, [0x41#21]⟩) := by decide

/-- The whole conjunction of clauses of the byte rules is over closed ranges: both ends. -/
theorem witness_BitExtraction : (0 : Nat) ≤ 7 ∧ (7 : Nat) ≤ 7 := by decide

theorem witness_ByteAssembly : (List.replicate 8 true).length = 8 ∧ (0 : Nat) < 8 ∧ (7 : Nat) < 8 := by decide

/-- Each outcome of an offer, at the limit of the smallest build: admitted, too long, misframed. -/
theorem witness_OffersAreAdmittedOrRefused :
    (nextOf (step ((State.resetFor ⟨4⟩).setAgenda [.offer (encode ⟨4⟩ (.encode ⟨1, [7#8]⟩))]))).isSome = true ∧
    refusalOf (step ((State.resetFor ⟨4⟩).setAgenda [.offer (encode ⟨4⟩ (.encode ⟨2, [7#8, 7#8]⟩))])) =
      some (.rejected .lengthUnrepresentable) ∧
    refusalOf (step ((State.resetFor ⟨4⟩).setAgenda [.offer (encode ⟨4⟩ (.encode ⟨1, []⟩))])) =
      some (.rejected .framing) ∧
    (nextOf (step ((State.resetFor ⟨4⟩).setAgenda
      [.offer (encode ⟨4⟩ (.decode ⟨15, List.replicate 15 L⟩))]))).isSome = true ∧
    refusalOf (step ((State.resetFor ⟨4⟩).setAgenda
      [.offer (encode ⟨4⟩ (.decode ⟨16, List.replicate 16 L⟩))])) = some (.rejected .lengthUnrepresentable) ∧
    refusalOf (step ((State.resetFor ⟨4⟩).setAgenda [.offer (encode ⟨4⟩ (.decode ⟨0, [L]⟩))])) =
      some (.rejected .framing) := by decide

/-- A request both over its limit and misframed: the limit is named (log entry 12). -/
theorem witness_OffersAreAdmittedOrRefused_both :
    refusalOf (step ((State.resetFor ⟨4⟩).setAgenda [.offer (encode ⟨4⟩ (.encode ⟨2, [7#8]⟩))])) =
      some (.rejected .lengthUnrepresentable) ∧
    refusalOf (step ((State.resetFor ⟨4⟩).setAgenda [.offer (encode ⟨4⟩ (.decode ⟨16, [L]⟩))])) =
      some (.rejected .lengthUnrepresentable) := by decide

/-- EncodeCompletes, EncodeElementRule, EncodeLengthAndAlphabet, BusyUnitsCompute and the first part of
RoundTripFromBytes: ENC BUSY with an admitted request; and the ends of the element rule's ranges. -/
theorem witness_EncodeCompletes :
    (encBusy 4 [0xC3#8]).enc.phase = .busy ∧ (encBusy 4 [0xC3#8]).enc.req = ⟨1, [0xC3#8]⟩ ∧
    (⟨1, [0xC3#8]⟩ : EncRequest).admitted ⟨4⟩ = true ∧ (⟨4⟩ : Config).wf = true := by decide

theorem witness_EncodeElementRule :
    ([0xC3#8] : List Byte)[0]? = some 0xC3#8 ∧ (0 : Nat) < 1 ∧ (7 : Nat) ≤ 7 ∧
    (0 : Nat) < 8 * 1 ∧ (7 : Nat) < 8 * 1 ∧ ([0xC3#8] : List Byte)[7 / 8]? = some 0xC3#8 := by decide

theorem witness_EmptyEncodeRequest :
    (State.resetFor ⟨4⟩).enc.phase = .idle ∧ (State.resetFor ⟨4⟩).encOffers = [] ∧
    ((State.resetFor ⟨4⟩).setAgenda
      [.offer (encode ⟨4⟩ (.encode ⟨0, []⟩)), .accept .enc, .compute .enc]).agenda =
      [.offer (encode ⟨4⟩ (.encode ⟨0, []⟩)), .accept .enc, .compute .enc] ++ [] := by decide

theorem witness_EncodeConcatenates :
    ([1#8] : List Byte).length + ([2#8] : List Byte).length ≤ (⟨5⟩ : Config).maxEncLen := by decide

theorem witness_EncodeInjective :
    (⟨1, [1#8]⟩ : EncRequest).admitted ⟨4⟩ = true ∧ (⟨1, [2#8]⟩ : EncRequest).admitted ⟨4⟩ = true ∧
    (⟨1, [1#8]⟩ : EncRequest) ≠ ⟨1, [2#8]⟩ ∧ ([1#8] : List Byte)[0]? ≠ ([2#8] : List Byte)[0]? ∧
    (⟨0, []⟩ : EncRequest).admitted ⟨4⟩ = true ∧ (⟨0, []⟩ : EncRequest).len ≠ (⟨1, [1#8]⟩ : EncRequest).len := by decide

/-- ENC at the first and the last character of its byte. -/
theorem witness_EncDatapathStep :
    (encBusy 4 [5#8]).enc.phase = .busy ∧ (encBusy 4 [5#8]).enc.req.admitted ⟨4⟩ = true ∧
    (encBusy 4 [5#8]).enc.eI < (encBusy 4 [5#8]).enc.req.len ∧ (encBusy 4 [5#8]).enc.eP ≤ 7 ∧
    (encBusy 4 [5#8]).enc.req.data[(encBusy 4 [5#8]).enc.eI]? = some 5#8 ∧
    (encBusy 4 [5#8]).enc.eOut.length = 8 * (encBusy 4 [5#8]).enc.eI + (7 - (encBusy 4 [5#8]).enc.eP) ∧
    ([L, L, L, L, L, H, L] : List Chr).length = 8 * 0 + (7 - 0) := by decide

/-- The hypotheses of EncDatapathGivesEncode: at the end of the smallest request, and from the initialisation for
`n = 1`. -/
theorem witness_EncDatapathGivesEncode :
    (encBusy 4 [5#8]).enc.phase = .busy ∧ (encBusy 4 [5#8]).enc.req = ⟨1, [5#8]⟩ ∧
    (⟨1, [5#8]⟩ : EncRequest).admitted ⟨4⟩ = true ∧ (encBusy 4 []).enc.eI = (encBusy 4 []).enc.req.len ∧
    (encBusy 4 [5#8]).enc.eI = 0 ∧ (encBusy 4 [5#8]).enc.eP = 7 ∧ (encBusy 4 [5#8]).enc.eOut = [] ∧
    ((encBusy 4 [5#8]).setAgenda (List.replicate 9 (.internal .enc))).agenda =
      List.replicate (8 * 1 + 1) (.internal .enc) ++ [] := by decide

/-- DecodePacksGroups, and RoundTripFromText: V9's `DECODE [L*8, H*8]`. -/
theorem witness_DecodePacksGroups :
    (decBusy 5 (List.replicate 8 L ++ List.replicate 8 H)).dec.phase = .busy ∧
    (decBusy 5 (List.replicate 8 L ++ List.replicate 8 H)).dec.req =
      ⟨16, List.replicate 8 L ++ List.replicate 8 H⟩ ∧
    (⟨16, List.replicate 8 L ++ List.replicate 8 H⟩ : DecRequest).admitted ⟨5⟩ = true ∧
    (∀ ch ∈ List.replicate 8 L ++ List.replicate 8 H, ch = high ∨ ch = low) ∧ 16 % 8 = 0 ∧
    16 / 8 ≤ (⟨5⟩ : Config).maxEncLen := by
  refine ⟨rfl, rfl, rfl, fun ch h => ?_, rfl, by decide⟩
  rcases List.mem_append.1 h with h | h
  · exact .inr (List.eq_of_mem_replicate h)
  · exact .inl (List.eq_of_mem_replicate h)

/-- An offender at the last position, after a valid character. -/
theorem witness_DecodeReportsFirstOffender :
    (decBusy 4 [H, 0x41#21]).dec.phase = .busy ∧ (decBusy 4 [H, 0x41#21]).dec.req = ⟨2, [H, 0x41#21]⟩ ∧
    (⟨2, [H, 0x41#21]⟩ : DecRequest).admitted ⟨4⟩ = true ∧ ([H, 0x41#21] : List Chr)[1]? = some 0x41#21 ∧
    (0x41#21 : Chr) ≠ high ∧ (0x41#21 : Chr) ≠ low ∧
    ∀ (j : Nat) (d : Chr), j < 1 → ([H, 0x41#21] : List Chr)[j]? = some d → d = high ∨ d = low := by
  refine ⟨by decide, by decide, by decide, by decide, by decide, by decide, ?_⟩
  intro j d hj hd
  obtain rfl : j = 0 := by omega
  exact .inl (Option.some.inj hd).symm

/-- DecodeReportsLength and DecodeOutcomes, at 7 and at 9 characters. -/
theorem witness_DecodeReportsLength :
    (decBusy 4 (List.replicate 7 H)).dec.phase = .busy ∧
    (decBusy 4 (List.replicate 7 H)).dec.req = ⟨7, List.replicate 7 H⟩ ∧
    (∀ ch ∈ List.replicate 7 H, ch = high ∨ ch = low) ∧ 7 % 8 ≠ 0 ∧
    (∀ ch ∈ List.replicate 9 L, ch = high ∨ ch = low) ∧ 9 % 8 ≠ 0 :=
  ⟨rfl, rfl, fun _ h => .inl (List.eq_of_mem_replicate h), by decide,
    fun _ h => .inr (List.eq_of_mem_replicate h), by decide⟩

theorem witness_EmptyDecodeRequest :
    (decBusy 4 []).dec.phase = .busy ∧ (decBusy 4 []).dec.req = ⟨0, []⟩ := by decide

theorem witness_RoundTripFromBytes :
    (⟨4⟩ : Config).wf = true ∧ ([0xC3#8] : List Byte).length ≤ (⟨4⟩ : Config).maxEncLen ∧
    (encBusy 4 [0xC3#8]).enc.phase = .busy ∧ (encBusy 4 [0xC3#8]).enc.req = ⟨1, [0xC3#8]⟩ ∧
    (decBusy 4 (encodeOp ⟨1, [0xC3#8]⟩).data).dec.phase = .busy ∧
    (decBusy 4 (encodeOp ⟨1, [0xC3#8]⟩).data).dec.req = ⟨8, (encodeOp ⟨1, [0xC3#8]⟩).data⟩ :=
  ⟨by decide, by decide, rfl, rfl, rfl, rfl⟩

/-- DEC past its last character, and before an alphabet character and an offender. -/
theorem witness_ValidateStep :
    (decBusy 4 []).dec.phase = .busy ∧ (decBusy 4 []).dec.dStep = .validate ∧
    (decBusy 4 []).dec.dK = (decBusy 4 []).dec.req.len ∧
    (decBusy 4 [L]).dec.dK < (decBusy 4 [L]).dec.req.len ∧
    (decBusy 4 [L]).dec.req.data[(decBusy 4 [L]).dec.dK]? = some L ∧
    (decBusy 4 [0x41#21]).dec.req.data[(decBusy 4 [0x41#21]).dec.dK]? = some 0x41#21 ∧
    (decBusy 4 [L]).dec.req.admitted ⟨4⟩ = true := by decide

/-- DEC at CHECKLEN with 7 and with 8 characters. -/
theorem witness_CheckLengthStep :
    (decScanned (decBusy 4 (List.replicate 7 H))).dec.phase = .busy ∧
    (decScanned (decBusy 4 (List.replicate 7 H))).dec.dStep = .checklen ∧
    (decScanned (decBusy 4 (List.replicate 7 H))).dec.req.len % 8 ≠ 0 ∧
    (decScanned (decBusy 4 (List.replicate 8 H))).dec.req.len % 8 = 0 := by decide

/-- DEC at PACK with its one group to pack, and with none left. -/
theorem witness_PackStep :
    t8Pack.dec.phase = .busy ∧ t8Pack.dec.dStep = .pack ∧ t8Pack.dec.dG < t8Pack.dec.req.len / 8 ∧
    t8Pack.dec.dOut.length = t8Pack.dec.dG ∧
    (t8Pack.dec.dBits.drop (8 * t8Pack.dec.dG)).take 8 =
      [false, false, false, false, false, false, false, true] ∧
    ((nextOf (decInternal t8Pack)).map fun t => (t.dec.dStep, t.dec.dG, t.dec.req.len / 8)) =
      some (.pack, 1, 1) :=
  ⟨rfl, rfl, by decide, rfl, rfl, rfl⟩

theorem witness_DecDatapathGivesDecode :
    (decBusy 4 [H]).dec.phase = .busy ∧ (decBusy 4 [H]).dec.req = ⟨1, [H]⟩ ∧
    (⟨1, [H]⟩ : DecRequest).admitted ⟨4⟩ = true ∧ (decBusy 4 [H]).dec.dStep = .validate ∧
    (decBusy 4 [H]).dec.dK = 0 ∧ (decBusy 4 [H]).dec.dBits = [] ∧ (decBusy 4 [H]).dec.dG = 0 ∧
    (decBusy 4 [H]).dec.dOut = [] ∧
    ((decBusy 4 [H]).setAgenda (List.replicate 4 (.internal .dec))).agenda =
      List.replicate (1 + 1 + 1 + 1 / 8 + 1) (.internal .dec) ++ [] := by decide

theorem witness_AlphabetSymbolsComplete :
    (decBusy 4 [H, L]).dec.phase = .busy ∧ (decBusy 4 [H, L]).dec.dStep = .validate ∧
    (decBusy 4 [H, L]).dec.dK < (decBusy 4 [H, L]).dec.req.len ∧
    (decBusy 4 [H, L]).dec.req.data[(decBusy 4 [H, L]).dec.dK]? = some 0x000020#21 ∧
    (decBusy 4 [L, H]).dec.req.data[(decBusy 4 [L, H]).dec.dK]? = some 0x00200B#21 ∧
    (∀ c ∈ [H, L], c = 0x000020#21 ∨ c = 0x00200B#21) ∧ ([H, L] : List Chr)[1]? = some L := by
  refine ⟨rfl, rfl, by decide, rfl, rfl, ?_, rfl⟩
  intro c hc
  simpa using hc

theorem witness_InvalidSymbolRaises :
    (decBusy 4 [0#21]).dec.phase = .busy ∧ (decBusy 4 [0#21]).dec.dStep = .validate ∧
    (decBusy 4 [0#21]).dec.dK < (decBusy 4 [0#21]).dec.req.len ∧
    (decBusy 4 [0#21]).dec.req.data[(decBusy 4 [0#21]).dec.dK]? = some 0#21 ∧
    (0#21 : Chr) ≠ 0x000020#21 ∧ (0#21 : Chr) ≠ 0x00200B#21 := by decide

/-- InstructionFrames: each instruction answers a next state that differs from the one before. -/
theorem witness_InstructionFrames :
    (∃ t, exec (.encode ⟨1, [5#8]⟩) (encBusy 4 [5#8]) = .next t ∧ t ≠ encBusy 4 [5#8]) ∧
    (∃ t, exec (.decode ⟨1, [H]⟩) (decBusy 4 [H]) = .next t ∧ t ≠ decBusy 4 [H]) ∧
    (∃ t, exec .symHigh (decBusy 4 [H]) = .next t ∧ t ≠ decBusy 4 [H]) ∧
    (∃ t, exec .symLow (decBusy 4 [L]) = .next t ∧ t ≠ decBusy 4 [L]) ∧
    ∃ t, exec (.symInvalid 0#21) (decBusy 4 [0#21]) = .next t ∧ t ≠ decBusy 4 [0#21] :=
  ⟨⟨_, rfl, by decide⟩, ⟨_, rfl, by decide⟩, ⟨_, rfl, by decide⟩, ⟨_, rfl, by decide⟩, ⟨_, rfl, by decide⟩⟩

/-- InstructionsNeverStop, the clauses of instructions away from their step. -/
theorem witness_InstructionsNeverStop :
    (¬ ((State.resetFor ⟨4⟩).enc.phase = .busy ∧ (State.resetFor ⟨4⟩).enc.req = ⟨1, [5#8]⟩)) ∧
    (¬ ((State.resetFor ⟨4⟩).dec.phase = .busy ∧ (State.resetFor ⟨4⟩).dec.req = ⟨1, [H]⟩)) ∧
    (¬ ((decBusy 4 [L]).dec.phase = .busy ∧ (decBusy 4 [L]).dec.dStep = .validate ∧
      (decBusy 4 [L]).dec.dK < (decBusy 4 [L]).dec.req.len ∧
      (decBusy 4 [L]).dec.req.data[(decBusy 4 [L]).dec.dK]? = some high)) := by decide

/-- StepRunsDecodedInstruction, its three clauses. -/
theorem witness_StepRunsDecodedInstruction :
    (encBusy 4 [5#8]).enc.phase = .busy ∧
    (decode ⟨4⟩ (encode ⟨4⟩ (.encode (encBusy 4 [5#8]).enc.req))).toOption = some (.encode ⟨1, [5#8]⟩) ∧
    (decBusy 4 [H]).dec.phase = .busy ∧
    (decode ⟨4⟩ (encode ⟨4⟩ (.decode (decBusy 4 [H]).dec.req))).toOption = some (.decode ⟨1, [H]⟩) ∧
    (decBusy 4 [H]).dec.dStep = .validate ∧ (decBusy 4 [H]).dec.dK < (decBusy 4 [H]).dec.req.len ∧
    (decBusy 4 [H]).dec.req.data[(decBusy 4 [H]).dec.dK]? = some H ∧
    (decode ⟨4⟩ (.symbol ⟨21, H.toNat⟩)).toOption = some .symHigh := by decide

/-- Both units IDLE with two offers standing on each channel. -/
def offered : State :=
  offerDec ⟨1, [L]⟩ (offerDec ⟨1, [H]⟩ (offerEnc ⟨1, [6#8]⟩ (offerEnc ⟨1, [5#8]⟩ (State.resetFor ⟨4⟩))))

theorem witness_AcceptStep :
    (offered.setAgenda [.accept .enc]).agenda = [.accept .enc] ∧ offered.enc.phase = .idle ∧
    offered.encOffers = [⟨1, [5#8]⟩, ⟨1, [6#8]⟩] ∧ offered.dec.phase = .idle ∧
    offered.decOffers = [⟨1, [H]⟩, ⟨1, [L]⟩] := by decide

/-- OffersAreHeld: BUSY and DONE units. -/
theorem witness_OffersAreHeld :
    (encBusy 4 [5#8]).enc.phase ≠ .idle ∧ (decBusy 4 [H]).dec.phase ≠ .idle ∧
    (respondDec (.ok 0 []) (decBusy 4 [])).dec.phase ≠ .idle := by decide

theorem witness_BusyUnitsCompute :
    (encBusy 4 [5#8]).enc.phase = .busy ∧ (encBusy 4 [5#8]).enc.req.admitted (encBusy 4 [5#8]).cfg = true ∧
    (decBusy 4 [H]).dec.phase = .busy ∧ (decBusy 4 [H]).dec.req.admitted (decBusy 4 [H]).cfg = true := by decide

/-- Both units DONE, with the responses of the requests accepted last. -/
def bothDone : State :=
  respondDec (decodeOp ⟨1, [H]⟩) (respondEnc (encodeOp ⟨1, [5#8]⟩)
    (takeDecRequest ⟨1, [H]⟩ (takeEncRequest ⟨1, [5#8]⟩ (State.resetFor ⟨4⟩))))

theorem witness_DeliverStep :
    bothDone.enc.phase = .done ∧ bothDone.encLog = [(⟨1, [5#8]⟩, none)] ∧
    bothDone.dec.phase = .done ∧ bothDone.decLog = [(⟨1, [H]⟩, none)] ∧
    (encBusy 4 [5#8]).enc.phase ≠ .done ∧ (decBusy 4 [H]).dec.phase ≠ .done := by decide

theorem witness_ResetStep : (bothDone.setAgenda [.reset]).agenda = .reset :: [] := by decide

/-- DEC DONE with each of the two errors, and an admitted request offered. -/
theorem witness_ErrorsLeaveNothingBehind :
    (offerDec ⟨1, [H]⟩ bothDone).dec.phase = .done ∧ (offerDec ⟨1, [H]⟩ bothDone).dec.resp = .invalidLength 1 ∧
    (offerDec ⟨1, [H]⟩ bothDone).decOffers = [⟨1, [H]⟩] ∧ (⟨1, [H]⟩ : DecRequest).admitted ⟨4⟩ = true ∧
    (raiseError (.invalidCharacter 0 0#21) (decBusy 4 [0#21])).dec.phase = .done ∧
    (raiseError (.invalidCharacter 0 0#21) (decBusy 4 [0#21])).dec.resp = .invalidCharacter 0 0#21 := by decide

theorem witness_ResponsesReadBack :
    (⟨4⟩ : Config).wf = true ∧ (⟨1, [5#8]⟩ : EncRequest).admitted ⟨4⟩ = true ∧
    (⟨15, List.replicate 15 H⟩ : DecRequest).admitted ⟨4⟩ = true := by decide

/-- ResetIsReady and ResetMeetsInvariant: the smallest build and its largest requests. -/
theorem witness_ResetMeetsInvariant :
    (⟨4⟩ : Config).wf = true ∧ (⟨1, [5#8]⟩ : EncRequest).admitted ⟨4⟩ = true ∧
    (⟨15, List.replicate 15 H⟩ : DecRequest).admitted ⟨4⟩ = true := by decide

/-- Every request recorded without a response. -/
theorem encLogOk_of_pending {s : State} {r : EncRequest} (h : s.encLog = [(r, none)])
    (hr : r.admitted s.cfg = true) : encLogOk s := by
  unfold encLogOk
  rw [h]
  intro e he
  rw [List.mem_singleton.1 he]
  exact ⟨hr, fun p hp => by cases hp⟩

theorem decLogOk_of_pending {s : State} {r : DecRequest} (h : s.decLog = [(r, none)])
    (hr : r.admitted s.cfg = true) : decLogOk s := by
  unfold decLogOk
  rw [h]
  intro e he
  rw [List.mem_singleton.1 he]
  exact ⟨hr, fun p hp => by cases hp⟩

/-- ENC BUSY and DEC DONE, the host about to run ENC's datapath and to take DEC's response, and offering a request. -/
def midway : State :=
  (respondDec (decodeOp ⟨1, [H]⟩) (takeDecRequest ⟨1, [H]⟩ (takeEncRequest ⟨1, [5#8]⟩ (State.resetFor ⟨4⟩)))).setAgenda
    [.internal .enc, .take .dec, .offer (encode ⟨4⟩ (.decode ⟨0, []⟩)), .reset]

theorem midway_inv : Inv midway where
  build := by decide
  encWide := ⟨by decide, by decide, by decide⟩
  decWide := ⟨by decide, by decide, by decide, by decide⟩
  offers := ⟨by decide, by decide⟩
  encPhase := ⟨by decide, by decide, by decide, fun _ => rfl, rfl⟩
  decPhase := ⟨⟨1, [H]⟩, rfl, rfl⟩
  encRecord := encLogOk_of_pending (r := ⟨1, [5#8]⟩) rfl (by decide)
  decRecord := decLogOk_of_pending (r := ⟨1, [H]⟩) rfl (by decide)

/-- StepKeepsInvariant, StepNeverFaults, OneResponsePerRequest and AcceptedRequestsDoNotChange: the invariant holds, a
step answers, the next move is no reset, and neither unit is IDLE. -/
theorem witness_StepKeepsInvariant :
    Inv midway ∧ (∃ t, step midway = .next t) ∧ midway.agenda.head? ≠ some .reset ∧
    midway.enc.phase ≠ .idle ∧ midway.dec.phase ≠ .idle :=
  ⟨midway_inv, ⟨_, rfl⟩, by decide, by decide, by decide⟩

theorem witness_WellFramedRunsNeverStop : Inv midway ∧ HostKeepsFraming midway := by
  refine ⟨midway_inv, ?_⟩
  intro w hw
  simp only [midway, State.setAgenda, List.mem_cons, reduceCtorEq, Event.offer.injEq, List.not_mem_nil, false_or,
    or_false] at hw
  subst hw
  decide

/-- DeliveredResponsesAreCorrect: after two steps the run records a DECODE response. -/
theorem witness_DeliveredResponsesAreCorrect :
    Inv midway ∧ ∃ t, stepN 2 midway = .next t ∧ t.decLog = [(⟨1, [H]⟩, some (.invalidLength 1))] :=
  ⟨midway_inv, _, rfl, by decide⟩

/-- Both units IDLE after an abandoned transaction of each, with an offer standing on ENC's channel. -/
def abandoned : State :=
  ((((State.resetFor ⟨4⟩).setEncLog [(⟨1, [5#8]⟩, none)]).setDecLog [(⟨1, [H]⟩, none)]).setEncOffers
    [⟨1, [6#8]⟩]).setAgenda [.accept .enc]

theorem witness_IdleRecordsAreFinal :
    Inv abandoned ∧ (∃ t, stepN 1 abandoned = .next t ∧ t.encLog = (⟨1, [6#8]⟩, none) :: abandoned.encLog) ∧
    abandoned.enc.phase = .idle ∧ abandoned.dec.phase = .idle := by
  refine ⟨⟨by decide, ⟨by decide, by decide, by decide⟩, ⟨by decide, by decide, by decide, by decide⟩,
    ⟨by decide, by decide⟩, trivial, trivial, encLogOk_of_pending (r := ⟨1, [5#8]⟩) rfl (by decide),
    decLogOk_of_pending (r := ⟨1, [H]⟩) rfl (by decide)⟩, ⟨_, rfl, rfl⟩, by decide, by decide⟩

/-- UnitsAreIndependent: two states with the same ENC and different DECs, with a move of ENC that makes a step; and the
other way round. -/
theorem witness_UnitsAreIndependent :
    (midway.enc = (midway.setDec (decBusy 4 [L]).dec).enc ∧ midway.dec ≠ (midway.setDec (decBusy 4 [L]).dec).dec ∧
      midway.agenda.head? = some (.internal .enc) ∧ ∃ t, step midway = .next t) ∧
    (midway.dec = (midway.setEnc (State.resetFor ⟨4⟩).enc).dec ∧
      midway.enc ≠ (midway.setEnc (State.resetFor ⟨4⟩).enc).enc ∧
      ∃ t, step (midway.setAgenda [.take .dec]) = .next t) :=
  ⟨⟨by decide, by decide, by decide, ⟨_, rfl⟩⟩, by decide, by decide, ⟨_, rfl⟩⟩

/-- UnspecifiedFieldsNeverMatter: two different states that differ only in what the spec leaves unspecified. -/
theorem witness_UnspecifiedFieldsNeverMatter :
    ∃ s t : State, s ≠ t ∧ SameButUnspecified s t := by
  refine ⟨State.resetFor ⟨4⟩, (State.resetFor ⟨4⟩).setEnc ⟨.idle, ⟨1, [5#8]⟩, ⟨0, []⟩, 1, 3, [H]⟩, by decide, ?_⟩
  refine ⟨rfl, ⟨rfl, ?_, ?_⟩, ⟨rfl, ?_, ?_⟩, rfl, rfl, rfl, rfl, rfl⟩
  all_goals intro h; cases h

/-! ## Progress and the end of a run -/

/-- With no agenda left a BUSY ENC computes by itself. -/
theorem test_own_compute : encAnswer (step (encBusy 4 [5#8])) = some ⟨8, [L, L, L, L, L, H, L, H]⟩ := by decide

/-- With nothing offered and both units IDLE there is no move (R126). -/
theorem test_idle_block_waits : nextOf (step State.reset) = some State.reset := by decide

/-- Both units BUSY. -/
def bothBusy : State := takeDecRequest ⟨1, [H]⟩ (takeEncRequest ⟨1, [5#8]⟩ (State.resetFor ⟨4⟩))

theorem bothBusy_inv : Inv bothBusy where
  build := by decide
  encWide := ⟨by decide, by decide, by decide⟩
  decWide := ⟨by decide, by decide, by decide, by decide⟩
  offers := ⟨by decide, by decide⟩
  encPhase := ⟨by decide, by decide, by decide, fun _ => rfl, rfl⟩
  decPhase := ⟨by decide, by decide, ⟨fun _ h => (nomatch h), rfl, ⟨by decide, rfl, rfl⟩⟩⟩
  encRecord := encLogOk_of_pending (r := ⟨1, [5#8]⟩) rfl (by decide)
  decRecord := decLogOk_of_pending (r := ⟨1, [H]⟩) rfl (by decide)

/-- Both compute, the host takes both responses, and nothing happens after that. -/
def servingMove : Nat → Event
  | 0 => .compute .enc
  | 1 => .compute .dec
  | 2 => .take .enc
  | _ => .take .dec

def servingState : Nat → State
  | 0 => bothBusy
  | 1 => respondEnc (encodeOp ⟨1, [5#8]⟩) bothBusy
  | 2 => bothDone
  | 3 => deliverEnc bothDone
  | _ => deliverDec (deliverEnc bothDone)

theorem serving_execution : Execution servingState servingMove
  | 0 => rfl
  | 1 => rfl
  | 2 => rfl
  | 3 => rfl
  | _ + 4 => rfl

/-- No kind of move stays enabled for ever: from time 4 on both units are IDLE with nothing offered. -/
theorem serving_fair : UnitsFair servingState servingMove ∧ HostFair servingState servingMove := by
  refine ⟨fun u n h => ?_, fun u => ⟨fun n h => ?_, fun n h => ?_⟩⟩
  · have := h (n + 4) (by omega); cases u <;> cases this
  · have := (h (n + 4) (by omega)).2; cases u <;> exact absurd rfl this
  · have := h (n + 4) (by omega); cases u <;> cases this

/-- FinitePartsAreRuns and BusyUnitsFinish: both units BUSY at time 0. -/
theorem witness_BusyUnitsFinish :
    Execution servingState servingMove ∧ Inv (servingState 0) ∧ UnitsFair servingState servingMove ∧
    (servingState 0).enc.phase = .busy ∧ (servingState 0).dec.phase = .busy :=
  ⟨serving_execution, bothBusy_inv, serving_fair.1, rfl, rfl⟩

theorem witness_HostProgramsTerminate :
    Execution servingState servingMove ∧ Inv (servingState 0) ∧ UnitsFair servingState servingMove ∧
    HostFair servingState servingMove ∧
    ∀ n, 0 ≤ n → servingMove n ≠ .reset ∧ ∀ w, servingMove n ≠ .offer w := by
  refine ⟨serving_execution, bothBusy_inv, serving_fair.1, serving_fair.2, fun n _ => ?_⟩
  unfold servingMove
  split <;> exact ⟨nofun, nofun⟩

theorem witness_BlockGoesOnByItself : Inv bothBusy ∧ bothBusy.agenda = [] ∧
    bothBusy.enc.phase = .busy ∧ bothBusy.dec.phase = .busy := ⟨bothBusy_inv, rfl, rfl, rfl⟩

/-- After reset, the host offers one request to each unit and takes both responses. -/
def oneEach : State := (State.resetFor ⟨4⟩).setAgenda
  [.offer (encode ⟨4⟩ (.encode ⟨1, [5#8]⟩)), .accept .enc, .compute .enc, .take .enc,
    .offer (encode ⟨4⟩ (.decode ⟨1, [H]⟩)), .accept .dec, .compute .dec, .take .dec]

theorem witness_EndedRunsShowEveryRequest :
    Inv oneEach ∧ served oneEach ∧ allAnswered oneEach ∧ Event.reset ∉ oneEach.agenda ∧ ∃ t, RunEnds oneEach 8 t := by
  refine ⟨⟨by decide, ⟨by decide, by decide, by decide⟩, ⟨by decide, by decide, by decide, by decide⟩,
    ⟨by decide, by decide⟩, trivial, trivial, fun e h => (nomatch h), fun e h => (nomatch h)⟩,
    ⟨rfl, rfl, rfl, rfl⟩, ⟨by decide, by decide⟩, by decide, ?_⟩
  refine ⟨_, rfl, .inl ⟨⟨rfl, rfl, rfl, rfl⟩, fun w h => ?_⟩⟩
  exact nomatch h

theorem witness_ResetEndsRun :
    ∃ u, stepN 1 (bothBusy.setAgenda [.compute .enc, .reset]) = .next u ∧ u.agenda = [.reset] := ⟨_, rfl, rfl⟩

/-- Either take of `bothDone` meets its clause; the last clause's premises are met by a move that is no take, by a take
at a DONE unit of the other kind, and by a take at a BUSY unit. -/
theorem witness_ResponsesShowAtDelivery :
    (bothDone.setAgenda [.take .enc]).enc.phase = .done ∧ bothDone.encLog = (⟨1, [5#8]⟩, none) :: [] ∧
    (bothDone.setAgenda [.take .dec]).dec.phase = .done ∧ bothDone.decLog = (⟨1, [H]⟩, none) :: [] ∧
    ((∃ t, step (bothDone.setAgenda [.reset]) = .next t) ∧ bothDone.enc.phase = .done) ∧
    (∃ t, step (bothDone.setAgenda [.take .dec]) = .next t) ∧
    ((∃ t, step (bothBusy.setAgenda [.take .enc]) = .next t) ∧ bothBusy.enc.phase ≠ .done) :=
  ⟨rfl, rfl, rfl, rfl, ⟨⟨_, rfl⟩, rfl⟩, ⟨_, rfl⟩, ⟨_, rfl⟩, by decide⟩

/-- A response discarded by a reset never shows (R26, R34, R127); one taken shows whole. -/
theorem test_discarded_response_never_shows :
    ((nextOf (step (bothDone.setAgenda [.reset]))).map fun t => (viewDec bothDone, viewDec t)) =
      some (⟨false, true, []⟩, ⟨true, false, []⟩) := by decide

theorem test_taken_response_shows :
    ((nextOf (step (bothDone.setAgenda [.take .dec]))).map viewDec) =
      some ⟨true, false, [.invalidLength 1]⟩ := by decide

end Sys2Proof.Tests
end

section
/-! PROOFS. The encoding family: symbols, bits and the byte of a group (R63 to R67). -/

namespace Sys2Proof.Machine

/-- The accumulation of a group of eight, from zero, one bit a step (R67, R106). -/
theorem pack_eight (t0 t1 t2 t3 t4 t5 t6 t7 : Bool) :
    pack [t0, t1, t2, t3, t4, t5, t6, t7] =
      0#8 ||| (bitByte t0 <<< 7) ||| (bitByte t1 <<< 6) ||| (bitByte t2 <<< 5) ||| (bitByte t3 <<< 4) |||
        (bitByte t4 <<< 3) ||| (bitByte t5 <<< 2) ||| (bitByte t6 <<< 1) ||| (bitByte t7 <<< 0) := rfl

/-- Settles O7: the OR form is the accumulation from zero with its two neutral operations dropped, and bit `7 - k`
is read off by `pack_getLsbD`. -/
theorem byteAssembly : Obligations.ByteAssembly := by
  unfold Obligations.ByteAssembly
  constructor
  · intro t0 t1 t2 t3 t4 t5 t6 t7
    rw [pack_eight, BitVec.zero_or, BitVec.shiftLeft_zero]
  · exact pack_getLsbD

/-- Settles O4: every row's mask is all ones or zero, so a row is hit by equality (`classify_eq`, `symBit_eq`). -/
theorem charactersClassifiedByEquality : Obligations.CharactersClassifiedByEquality :=
  fun c => ⟨classify_eq c, symBit_eq c⟩

/-- Settles O5, by the definition of `sym`. -/
theorem symbolOfBit : Obligations.SymbolOfBit := ⟨rfl, rfl⟩

/-- `bit` is the test of the masked byte against zero (R66). -/
theorem bit_eq_true_iff (b : Byte) (p : Nat) : bit b p = true ↔ b &&& (1#8 <<< p) ≠ 0#8 :=
  bne_iff_ne

/-- Settles O6: the masked test is the definition of `bit`, and `bit_eq_getLsbD` gives the bit itself. -/
theorem bitExtraction : Obligations.BitExtraction :=
  fun b p _ => ⟨bit_eq_true_iff b p, bit_eq_getLsbD b p⟩

end Sys2Proof.Machine
end

section
/-! PROOFS. The encoder family: what ENCODE answers, element by element (R72 to R80), and the reference datapath that
computes it character by character (R83, R84). -/

namespace Sys2Proof.Machine

/-! ## The response of ENCODE -/

/-- The symbol of a bit, by the masked test of R72. -/
theorem sym_bit_eq (b : Byte) (p : Nat) :
    sym (bit b p) = if b &&& (1#8 <<< p) ≠ 0#8 then 0x000020#21 else 0x00200B#21 :=
  if_congr (bit_eq_true_iff b p) rfl rfl

/-- `F_ENC` with the masked test of R72 written out. -/
theorem encodeOp_eq (r : EncRequest) :
    encodeOp r = ⟨8 * r.len, r.data.flatMap fun b => [7, 6, 5, 4, 3, 2, 1, 0].map fun p =>
      if b &&& (1#8 <<< p) ≠ 0#8 then 0x000020#21 else 0x00200B#21⟩ := by
  have hbyte (b : Byte) : encodeByte b = [7, 6, 5, 4, 3, 2, 1, 0].map fun p =>
      if b &&& (1#8 <<< p) ≠ 0#8 then 0x000020#21 else 0x00200B#21 :=
    List.map_congr_left fun p _ => sym_bit_eq b p
  rw [encodeOp, funext hbyte]

/-- The instruction ENCODE at the unit that is BUSY with its request (R20, R72). -/
theorem exec_encode_busy {s : State} {r : EncRequest} (hp : s.enc.phase = .busy) (hr : s.enc.req = r) :
    exec (.encode r) s = .next (respondEnc (encodeOp r) s) :=
  execEncode_busy hp hr

/-- The `8n` characters of an admitted request are a count of `POS_W` bits (R72, R74). -/
theorem admitted_response_fits {c : Config} {r : EncRequest} (hc : c.wf = true) (hr : r.admitted c = true) :
    8 * r.len ≤ 2 ^ c.posW - 1 := by
  obtain ⟨-, hlen⟩ := (r.admitted_iff c).1 hr
  have hpow := two_pow_posW hc
  omega

/-- Settles O9: the response is `F_ENC` of the request (`encodeOp_eq`). -/
theorem encodeCompletes : Obligations.EncodeCompletes := by
  intro s r hp hr
  refine ⟨?_, fun c hc hadm => admitted_response_fits hc hadm⟩
  rw [exec_encode_busy hp hr, encodeOp_eq]
  rfl

/-- Different bits have different symbols (R63). -/
theorem sym_injective : Function.Injective sym := fun a b h => by
  rw [← sym_eq_high a, h, sym_eq_high]

/-- A symbol is HIGH exactly when its bit is 1 (R63). -/
theorem sym_eq_high_iff (b : Bool) : sym b = high ↔ b = true :=
  sym_injective.eq_iff (b := true)

/-- Element `8i + (7 - p)` is the symbol of bit `p` of byte `i` (R73). -/
theorem encodeOp_getElem?_bit {r : EncRequest} {i p : Nat} {b : Byte} (hp : p ≤ 7) (hb : r.data[i]? = some b) :
    (encodeOp r).data[8 * i + (7 - p)]? = some (sym (bit b p)) := by
  have hpos : 7 - (7 - p) = p := by omega
  rw [encodeOp_getElem? r i (7 - p) (by omega), hb, hpos, bit_eq_getLsbD]
  rfl

/-- Element `j` is the symbol of bit `7 - (j mod 8)` of byte `j div 8` (R73). -/
theorem encodeOp_getElem?_index {r : EncRequest} {j : Nat} {b : Byte} (hb : r.data[j / 8]? = some b) :
    (encodeOp r).data[j]? = some (sym (b.getLsbD (7 - j % 8))) := by
  have h := encodeOp_getElem? r (j / 8) (j % 8) (by omega)
  rw [Nat.div_add_mod, hb] at h
  exact h

/-- Settles O10, by the two forms of the element rule. -/
theorem encodeElementRule : Obligations.EncodeElementRule := by
  intro c s r hp hr _
  refine ⟨_, exec_encode_busy hp hr, rfl, fun i p b _ hp7 hb => encodeOp_getElem?_bit hp7 hb, ?_⟩
  intro j b _ hb
  rw [respondEnc_resp, encodeOp_getElem?_index hb, Option.some_inj]
  exact sym_eq_high_iff _

/-- Settles O11: eight characters a byte (`encodeOp_data_length`), each the symbol of a bit (`encodeOp_alphabetic`). -/
theorem encodeLengthAndAlphabet : Obligations.EncodeLengthAndAlphabet := by
  intro c s r hp hr hadm
  obtain ⟨hlen, -⟩ := (r.admitted_iff c).1 hadm
  refine ⟨_, exec_encode_busy hp hr, rfl, rfl, ?_, encodeOp_alphabetic r⟩
  rw [respondEnc_resp, encodeOp_data_length, hlen]

/-- Settles O13: the table is `encodeByte`, and a flattened map of a concatenation is the concatenation. -/
theorem encodeConcatenates : Obligations.EncodeConcatenates :=
  ⟨fun _ _ _ _ => List.flatMap_append,
    encodeByte, fun x => ⟨encodeByte_length x, List.flatMap_singleton encodeByte x⟩, fun _ => rfl⟩

/-- Two bytes that differ have a bit in which they differ. -/
theorem exists_bit_ne {a b : Byte} (h : a ≠ b) : ∃ p, p ≤ 7 ∧ bit a p ≠ bit b p := by
  by_contra hall
  push Not at hall
  refine h (BitVec.eq_of_getLsbD_eq fun p hp => ?_)
  rw [← bit_eq_getLsbD, ← bit_eq_getLsbD]
  exact hall p (by omega)

/-- Requests that differ in a byte both of them have give responses that differ in one of its 8 elements (R80). -/
theorem encodeOp_differs_at {r₁ r₂ : EncRequest} (hlen : r₁.data.length = r₂.data.length) {i : Nat}
    (hi : r₁.data[i]? ≠ r₂.data[i]?) :
    ∃ p, p ≤ 7 ∧ (encodeOp r₁).data[8 * i + 7 - p]? ≠ (encodeOp r₂).data[8 * i + 7 - p]? := by
  have hlt : i < r₁.data.length := by
    by_contra hge
    exact hi (by rw [List.getElem?_eq_none (by omega), List.getElem?_eq_none (by omega)])
  have h₁ := List.getElem?_eq_getElem hlt
  have h₂ := List.getElem?_eq_getElem (hlen ▸ hlt)
  rw [h₁, h₂] at hi
  obtain ⟨p, hp, hbit⟩ := exists_bit_ne fun h => hi (congrArg some h)
  refine ⟨p, hp, ?_⟩
  rw [Nat.add_sub_assoc hp, encodeOp_getElem?_bit hp h₁, encodeOp_getElem?_bit hp h₂]
  exact fun h => hbit (sym_injective (Option.some.inj h))

/-- Settles O14: the length of a request is read off its response, and so is every byte (`encodeOp_differs_at`). -/
theorem encodeInjective : Obligations.EncodeInjective := by
  intro c r₁ r₂ hadm₁ hadm₂
  obtain ⟨h₁, -⟩ := (r₁.admitted_iff c).1 hadm₁
  obtain ⟨h₂, -⟩ := (r₂.admitted_iff c).1 hadm₂
  have hdata (hlen : r₁.len = r₂.len) : r₁.data.length = r₂.data.length := by rw [h₁, h₂, hlen]
  refine ⟨fun hne heq => hne ?_, fun hlen => ?_, fun i hlen => encodeOp_differs_at (hdata hlen)⟩
  · have hlen : r₁.len = r₂.len := Nat.eq_of_mul_eq_mul_left (by decide) (congrArg EncResponse.len heq)
    have hall : r₁.data = r₂.data := List.ext_getElem? fun i => by
      by_contra hi
      obtain ⟨p, -, hp⟩ := encodeOp_differs_at (hdata hlen) hi
      exact hp (by rw [heq])
    show EncRequest.mk r₁.len r₁.data = r₂
    rw [hlen, hall]
  · rw [encodeOp_data_length, encodeOp_data_length, h₁, h₂]
    omega

/-! ## The transaction of the empty request -/

/-- The host offers an admitted ENCODE request (R18, R19). -/
theorem step_offerEnc {s : State} {r : EncRequest} {rest : List Event} (hr : r.admitted s.cfg = true)
    (ha : s.agenda = .offer (encode s.cfg (.encode r)) :: rest) :
    step s = .next (offerEnc r (s.setAgenda rest)) := by
  rw [step_cons ha]
  simp only [runEvent, hostOffer, State.setAgenda_cfg, decode_of_admitted_enc hr]

/-- An IDLE ENC accepts the oldest offer (R17). -/
theorem step_acceptEnc {s : State} {r : EncRequest} {offers : List EncRequest} {rest : List Event}
    (ha : s.agenda = .accept .enc :: rest) (hp : s.enc.phase = .idle) (ho : s.encOffers = r :: offers) :
    step s = .next (takeEncRequest r ((s.setAgenda rest).setEncOffers offers)) := by
  rw [step_cons ha, runEvent, acceptEnc_idle (s := s.setAgenda rest) hp ho]

/-- A BUSY ENC computes `F_ENC` of its admitted request (R20). -/
theorem step_computeEnc {s : State} {rest : List Event} (ha : s.agenda = .compute .enc :: rest)
    (hp : s.enc.phase = .busy) (hr : s.enc.req.admitted s.cfg = true) :
    step s = .next (respondEnc (encodeOp s.enc.req) (s.setAgenda rest)) := by
  rw [step_cons ha]
  exact computeEnc_eq (s := s.setAgenda rest) hp hr

/-- One step more than a run of `k` steps. -/
theorem stepN_succ_last {k : Nat} {s t : State} (h : stepN k s = .next t) : stepN (k + 1) s = step t := by
  rw [stepN_add k 1 s t h, stepN_one]

/-- The empty request is admitted by every build (R75). -/
theorem empty_admitted (c : Config) : (⟨0, []⟩ : EncRequest).admitted c = true :=
  (EncRequest.admitted_iff c _).2 ⟨rfl, Nat.two_pow_pos _⟩

/-- Settles O12: the offer, the accept step and the compute step, one after the other. -/
theorem emptyEncodeRequest : Obligations.EmptyEncodeRequest := by
  intro s rest hp ho ha
  have hoffer := (stepN_one s).trans (step_offerEnc (empty_admitted s.cfg) ha)
  have haccept := (stepN_succ_last hoffer).trans
    (step_acceptEnc rfl hp (offers := []) (congrArg (· ++ [_]) ho))
  have hcompute := (stepN_succ_last haccept).trans (step_computeEnc rfl rfl (empty_admitted s.cfg))
  exact ⟨⟨_, haccept, rfl, rfl⟩, _, hcompute, rfl, rfl, rfl⟩

/-! ## The reference datapath -/

/-- The registers after one character, in the form of R83. -/
theorem encAdvance_eq (u : EncUnit) (out : List Chr) :
    encAdvance u out = { u with
      eOut := out
      eP := if u.eP = 0 then 7 else u.eP - 1
      eI := if u.eP = 0 then u.eI + 1 else u.eI } := by
  unfold encAdvance
  split <;> rfl

/-- While bytes are left and the buffer ends before the current element, an internal step appends that element,
whatever the buffer holds (R83). -/
theorem encInternal_appends {s : State} {b : Byte} (hp : s.enc.phase = .busy) (hlt : s.enc.eI < s.enc.req.len)
    (hb : s.enc.req.data[s.enc.eI]? = some b) (hout : s.enc.eOut.length = 8 * s.enc.eI + (7 - s.enc.eP)) :
    encInternal s = .next (s.setEnc (encAdvance s.enc (s.enc.eOut ++ [sym (bit b s.enc.eP)]))) := by
  rw [encInternal, if_pos hp, if_pos hlt, inRead_eq_some.2 ⟨hlt, hb⟩]
  simp only [← hout, outWrite_append]

/-- Past the last byte an internal step responds with the buffer, whatever it holds (R84). -/
theorem encInternal_responds {s : State} (hp : s.enc.phase = .busy) (he : s.enc.eI = s.enc.req.len) :
    encInternal s = .next (respondEnc ⟨8 * s.enc.req.len, s.enc.eOut⟩ s) := by
  rw [encInternal, if_pos hp, if_neg (by omega), if_pos he]

/-- Settles O15: the step appends one character (`encInternal_appends`), and `e_i + 1 ≤ n` fits the length field. -/
theorem encDatapathStep : Obligations.EncDatapathStep := by
  intro s b rest ha hp hadm hlt _ hb hout
  obtain ⟨-, hlen⟩ := (EncRequest.admitted_iff _ _).1 hadm
  refine ⟨Nat.lt_of_le_of_lt hlt hlen, ?_⟩
  rw [step_cons ha]
  refine (encInternal_appends (s := s.setAgenda rest) hp hlt hb hout).trans ?_
  rw [encAdvance_eq, sym_bit_eq]
  rfl

/-- ENC `k` internal steps after its initialisation: the counters stand at element `k` of the response, and the
buffer holds the elements before it (R83). -/
def encAfter (u : EncUnit) (k : Nat) : EncUnit :=
  { u with eI := k / 8, eP := 7 - k % 8, eOut := (encodeOp u.req).data.take k }

/-- `encAfter` advances: the registers after the character at element `k` stand at element `k + 1`. -/
theorem encAdvance_encAfter (u : EncUnit) (k : Nat) :
    encAdvance (encAfter u k) ((encodeOp u.req).data.take (k + 1)) = encAfter u (k + 1) := by
  rw [encAdvance_eq, encAfter, encAfter]
  congr 1
  case e_eI => simp only; split <;> omega
  case e_eP => simp only; split <;> omega

/-- At the initialisation of R82 no step has been made. -/
theorem encAfter_zero {u : EncUnit} (hI : u.eI = 0) (hP : u.eP = 7) (hO : u.eOut = []) : encAfter u 0 = u := by
  show { u with eI := 0, eP := 7, eOut := [] } = u
  rw [← hI, ← hP, ← hO]

/-- After `8n` steps the counter stands past the last byte and the buffer holds the whole response (R84). -/
theorem encAfter_end {u : EncUnit} (hlen : u.req.data.length = u.req.len) :
    (encAfter u (8 * u.req.len)).eI = u.req.len ∧
      (encAfter u (8 * u.req.len)).eOut = (encodeOp u.req).data :=
  ⟨Nat.mul_div_cancel_left _ (by decide),
    List.take_of_length_le (by rw [encodeOp_data_length, hlen])⟩

/-- An internal step before the end takes `encAfter u k` to `encAfter u (k + 1)` (R83). -/
theorem encInternal_encAfter (s : State) {u : EncUnit} {k : Nat} (hp : u.phase = .busy)
    (hlen : u.req.data.length = u.req.len) (hk : k < 8 * u.req.len) :
    encInternal (s.setEnc (encAfter u k)) = .next (s.setEnc (encAfter u (k + 1))) := by
  have hlt : k / 8 < u.req.len := by omega
  obtain ⟨b, hb⟩ : ∃ b, u.req.data[k / 8]? = some b :=
    ⟨_, List.getElem?_eq_getElem (hlen.symm ▸ hlt)⟩
  have hout : ((encodeOp u.req).data.take k).length = 8 * (k / 8) + (7 - (7 - k % 8)) := by
    rw [List.length_take, encodeOp_data_length, hlen]
    omega
  have hnext : (encodeOp u.req).data.take k ++ [sym (bit b (7 - k % 8))] =
      (encodeOp u.req).data.take (k + 1) := by
    rw [List.take_add_one, encodeOp_getElem?_index hb, bit_eq_getLsbD]
    rfl
  rw [← encAdvance_encAfter, ← hnext]
  exact encInternal_appends (s := s.setEnc (encAfter u k)) hp hlt hb hout

/-- From the initialisation, up to `8n` internal steps only move ENC along `encAfter` (R83, R84). -/
theorem stepN_encAfter {s : State} {rest : List Event} (hp : s.enc.phase = .busy)
    (hlen : s.enc.req.data.length = s.enc.req.len) (h0 : encAfter s.enc 0 = s.enc) (k m : Nat)
    (hk : k ≤ 8 * s.enc.req.len) (ha : s.agenda = List.replicate (k + m) (.internal .enc) ++ rest) :
    stepN k s = .next ((s.setEnc (encAfter s.enc k)).setAgenda
      (List.replicate m (.internal .enc) ++ rest)) := by
  induction k generalizing m with
  | zero =>
    rw [Nat.zero_add] at ha
    rw [h0, ← ha]
    rfl
  | succ k ih =>
    have hrun := ih (m + 1) (by omega) (by rw [ha, Nat.add_right_comm, Nat.add_assoc])
    rw [stepN_succ_last hrun, step_cons rfl]
    exact encInternal_encAfter (s.setAgenda _) hp hlen (by omega)

/-- Settles O16: `encAfter` at `8n` stands past the last byte with the whole response in its buffer. -/
theorem encDatapathGivesEncode : Obligations.EncDatapathGivesEncode := by
  refine ⟨fun s rest ha hp he => ?_, ?_⟩
  · rw [step_cons ha]
    exact encInternal_responds (s := s.setAgenda rest) hp he
  · rintro s r rest hadm hp rfl hI hP hO ha
    obtain ⟨hlen, -⟩ := (EncRequest.admitted_iff _ _).1 hadm
    obtain ⟨hendI, hendOut⟩ := encAfter_end hlen
    have hrun := stepN_encAfter (rest := rest) hp hlen (encAfter_zero hI hP hO)
    have hfull := hrun (8 * s.enc.req.len) 1 le_rfl ha
    have hlast := stepN_succ_last hfull
    rw [step_cons rfl] at hlast
    have hdone := hlast.trans (encInternal_responds hp hendI)
    refine ⟨fun k hk => ?_, ⟨_, hfull, hendI, hendOut⟩, _, hdone, rfl, ?_, rfl⟩
    · refine ⟨_, hrun k (8 * s.enc.req.len + 1 - k) hk ?_, hp⟩
      rw [ha, Nat.add_sub_of_le (by omega)]
    · exact congrArg (EncResponse.mk _) hendOut

end Sys2Proof.Machine
end

section
/-! PROOFS. The decoder family: the three outcomes of DECODE (R86 to R97), the round trips with ENCODE (R101, R102), and
one step of DEC's reference datapath (R104 to R106). -/

namespace Sys2Proof.Machine

/-! ## The response of DECODE -/

/-- The instruction DECODE at the unit that is BUSY with its request (R20, R85). -/
theorem exec_decode_busy {s : State} {r : DecRequest} (hp : s.dec.phase = .busy) (hr : s.dec.req = r) :
    exec (.decode r) s = .next (respondDec (decodeOp r) s) :=
  execDecode_busy hp hr

/-- The bits of group `g` are those of characters `8g` to `8g + 7` (R92). -/
theorem groupAt_bitsOf (cs : List Chr) (g : Nat) :
    groupAt (bitsOf cs) g = ((cs.drop (8 * g)).take 8).map fun ch => ch == high := by
  rw [groupAt, bitsOf, ← List.map_drop, ← List.map_take]

/-- The bit of character `k` stands at `7 - k mod 8` in byte `k div 8`, whatever the characters (R93). -/
theorem packGroups_getLsbD {cs : List Chr} {n k : Nat} {ch : Chr} {b : Byte} (hlen : cs.length = 8 * n)
    (hk : cs[k]? = some ch) (hb : (packGroups (bitsOf cs) n)[k / 8]? = some b) :
    b.getLsbD (7 - k % 8) = (ch == high) := by
  obtain ⟨hlt, rfl⟩ := List.getElem?_eq_some_iff.1 hk
  have h := packGroups_bit cs n k hlen (hlen ▸ hlt) hlt
  rw [hb] at h
  exact Option.some.inj h

/-- Settles O17: the bytes are those of the groups (`decodeOp_ok`), and `packGroups_getLsbD` finds each character's
bit. -/
theorem decodePacksGroups : Obligations.DecodePacksGroups := by
  intro c s r hp hr hadm halpha hm
  obtain ⟨hlen, -⟩ := (r.admitted_iff c).1 hadm
  refine ⟨packGroups (bitsOf r.data) (r.len / 8), ?_, packGroups_length _ _, fun g hg => ?_, fun k ch b hk hb => ?_⟩
  · rw [exec_decode_busy hp hr, decodeOp_ok halpha hm]
    rfl
  · rw [packGroups_getElem? _ _ _ hg, groupAt_bitsOf]
  · exact packGroups_getLsbD (by omega) hk hb

/-- Settles O18: the scan stops at the first offender before the length is looked at (`decodeOp_badChar`), and a
position of an admitted request fits the field. -/
theorem decodeReportsFirstOffender : Obligations.DecodeReportsFirstOffender := by
  intro c s r pos ch hp hr hadm hch hhigh hlow hbefore
  obtain ⟨hlen, hfit⟩ := (r.admitted_iff c).1 hadm
  obtain ⟨hpos, -⟩ := List.getElem?_eq_some_iff.1 hch
  refine ⟨by omega, ?_⟩
  rw [exec_decode_busy hp hr, decodeOp_badChar hch (not_or.2 ⟨hhigh, hlow⟩) hbefore]
  rfl

/-- Settles O19: the scan passes and the length test fails (`decodeOp_badLength`). -/
theorem decodeReportsLength : Obligations.DecodeReportsLength := by
  intro s r hp hr halpha hm
  rw [exec_decode_busy hp hr, decodeOp_badLength halpha hm]
  rfl

/-- The empty request has no character to offend and no group to pack (R95). -/
theorem decodeOp_empty : decodeOp ⟨0, []⟩ = .ok 0 [] := rfl

/-- Settles O21, by the value of `F_DEC` at the empty request. -/
theorem emptyDecodeRequest : Obligations.EmptyDecodeRequest := by
  intro s hp hr
  rw [exec_decode_busy hp hr, decodeOp_empty]
  rfl

/-! ## Which outcome, and its status code -/

theorem exists_offender_iff (cs : List Chr) :
    (∃ ch ∈ cs, ch ≠ high ∧ ch ≠ low) ↔ ¬ ∀ ch ∈ cs, alphabetic ch := by
  simp only [alphabetic, not_forall, not_or, exists_prop]

/-- Everything DECODE can answer, each form with the requests that have it (R96). -/
theorem decodeOp_outcomes (r : DecRequest) :
    ((∀ ch ∈ r.data, alphabetic ch) ∧ r.len % 8 = 0 ∧ ∃ n bytes, decodeOp r = .ok n bytes) ∨
      ((∀ ch ∈ r.data, alphabetic ch) ∧ r.len % 8 ≠ 0 ∧ ∃ n, decodeOp r = .invalidLength n) ∨
      ((¬ ∀ ch ∈ r.data, alphabetic ch) ∧ ∃ pos ch, decodeOp r = .invalidCharacter pos ch) := by
  obtain hall | ⟨i, c, hi, hc, hbefore⟩ := first_offender r.data
  · by_cases hm : r.len % 8 = 0
    · exact .inl ⟨hall, hm, _, _, decodeOp_ok hall hm⟩
    · exact .inr (.inl ⟨hall, hm, _, decodeOp_badLength hall hm⟩)
  · exact .inr (.inr ⟨fun hall => hc (hall c (List.mem_of_getElem? hi)), _, _, decodeOp_badChar hi hc hbefore⟩)

/-- DECODE succeeds on whole groups of alphabet characters, and on nothing else (R96). -/
theorem decodeOp_eq_ok_iff (r : DecRequest) :
    (∃ n bytes, decodeOp r = .ok n bytes) ↔ (∀ ch ∈ r.data, alphabetic ch) ∧ r.len % 8 = 0 := by
  obtain ⟨hall, hm, n, bytes, h⟩ | ⟨hall, hm, n, h⟩ | ⟨hoff, pos, ch, h⟩ := decodeOp_outcomes r
  · exact iff_of_true ⟨n, bytes, h⟩ ⟨hall, hm⟩
  · exact iff_of_false (by simp [h]) fun hok => hm hok.2
  · exact iff_of_false (by simp [h]) fun hok => hoff hok.1

/-- DECODE reports a character exactly when there is an offender (R96). -/
theorem decodeOp_eq_invalidCharacter_iff (r : DecRequest) :
    (∃ pos ch, decodeOp r = .invalidCharacter pos ch) ↔ ∃ ch ∈ r.data, ch ≠ high ∧ ch ≠ low := by
  rw [exists_offender_iff]
  obtain ⟨hall, -, n, bytes, h⟩ | ⟨hall, -, n, h⟩ | ⟨hoff, pos, ch, h⟩ := decodeOp_outcomes r
  · exact iff_of_false (by simp [h]) (not_not_intro hall)
  · exact iff_of_false (by simp [h]) (not_not_intro hall)
  · exact iff_of_true ⟨pos, ch, h⟩ hoff

/-- DECODE reports the length only where no character offends (R96). -/
theorem decodeOp_eq_invalidLength_iff (r : DecRequest) :
    (∃ n, decodeOp r = .invalidLength n) ↔ (∀ ch ∈ r.data, alphabetic ch) ∧ r.len % 8 ≠ 0 := by
  obtain ⟨hall, hm, n, bytes, h⟩ | ⟨hall, hm, n, h⟩ | ⟨hoff, pos, ch, h⟩ := decodeOp_outcomes r
  · exact iff_of_false (by simp [h]) fun hbad => hbad.2 hm
  · exact iff_of_true ⟨n, h⟩ ⟨hall, hm⟩
  · exact iff_of_false (by simp [h]) fun hbad => hoff hbad.1

/-- The status code names the form of the response, one code a form, and `0b11` names none (R61). -/
theorem statusOf_iff (p : DecResponse) :
    (statusOf p = 0b00#2 ↔ ∃ n bytes, p = .ok n bytes) ∧
      (statusOf p = 0b01#2 ↔ ∃ pos ch, p = .invalidCharacter pos ch) ∧
      (statusOf p = 0b10#2 ↔ ∃ n, p = .invalidLength n) ∧ statusOf p ≠ 0b11#2 := by
  cases p with
  | ok n bytes => simp [statusOf]
  | invalidCharacter pos ch => simp [statusOf]
  | invalidLength n => simp [statusOf]

/-- Settles O20: the condition of each form of the response, and the status code of each form (`statusOf_iff`). -/
theorem decodeOutcomes : Obligations.DecodeOutcomes := by
  intro s r hp hr
  have hok := decodeOp_eq_ok_iff r
  have hchar := decodeOp_eq_invalidCharacter_iff r
  have hlength := decodeOp_eq_invalidLength_iff r
  obtain ⟨hst0, hst1, hst2, hst3⟩ := statusOf_iff (decodeOp r)
  exact ⟨_, exec_decode_busy hp hr, rfl, hok, hchar, hlength,
    hst0.trans hok, hst1.trans hchar, hst2.trans hlength, hst3⟩

/-! ## The round trips -/

/-- Packing the characters of ENCODE gives back the bytes: each bit of each byte comes through its symbol (R101). -/
theorem packGroups_encodeOp (r : EncRequest) :
    packGroups (bitsOf (encodeOp r).data) r.data.length = r.data := by
  refine List.ext_getElem (packGroups_length _ _) fun i hi hd => BitVec.eq_of_getLsbD_eq fun p hp => ?_
  have hchar := encodeOp_getElem?_bit (p := p) (by omega) (List.getElem?_eq_getElem hd)
  have hdiv : (8 * i + (7 - p)) / 8 = i := by omega
  have hmod : 7 - (8 * i + (7 - p)) % 8 = p := by omega
  have hbit := packGroups_getLsbD (encodeOp_data_length r) hchar (by rw [hdiv, List.getElem?_eq_getElem hi])
  rwa [hmod, sym_eq_high, bit_eq_getLsbD] at hbit

/-- ENCODE of the packed bytes gives back the characters: each alphabet character is the symbol of its bit (R102). -/
theorem encodeOp_packGroups {cs : List Chr} {n : Nat} (hlen : cs.length = 8 * n)
    (halpha : ∀ ch ∈ cs, alphabetic ch) : encodeOp ⟨n, packGroups (bitsOf cs) n⟩ = ⟨cs.length, cs⟩ := by
  have hdata : (encodeOp ⟨n, packGroups (bitsOf cs) n⟩).data = cs := by
    refine List.ext_getElem (by rw [encodeOp_data_length, packGroups_length, hlen]) fun k hk hk' => ?_
    have hb : (packGroups (bitsOf cs) n)[k / 8]? = some (pack (groupAt (bitsOf cs) (k / 8))) :=
      packGroups_getElem? _ _ _ (by omega)
    have hchar := encodeOp_getElem?_index (r := ⟨n, packGroups (bitsOf cs) n⟩) hb
    rw [packGroups_getLsbD hlen (List.getElem?_eq_getElem hk') hb,
      sym_of_alphabetic (halpha _ (List.getElem_mem hk'))] at hchar
    exact (List.getElem?_eq_some_iff.1 hchar).2
  rw [hlen]
  exact congrArg (EncResponse.mk (8 * n)) hdata

/-- A framed ENCODE request within the limit is admitted (R19). -/
theorem enc_admitted_of_le {c : Config} {n : Nat} {bs : List Byte} (hlen : bs.length = n) (hle : n ≤ c.maxEncLen) :
    (⟨n, bs⟩ : EncRequest).admitted c = true :=
  Bool.and_eq_true_iff.2 ⟨beq_iff_eq.2 hlen.symm, decide_eq_true hle⟩

/-- The characters of an admitted ENCODE request are an admitted DECODE request (R101). -/
theorem dec_admitted_of_encodeOp {c : Config} {r : EncRequest} (hc : c.wf = true) (hr : r.admitted c = true) :
    (⟨8 * r.len, (encodeOp r).data⟩ : DecRequest).admitted c = true := by
  have hfit := admitted_response_fits hc hr
  obtain ⟨hlen, -⟩ := (r.admitted_iff c).1 hr
  refine Bool.and_eq_true_iff.2 ⟨beq_iff_eq.2 ?_, decide_eq_true hfit⟩
  rw [encodeOp_data_length, hlen]

/-- Settles O22: the characters of ENCODE are whole groups of alphabet characters, and packing them gives back the bytes
(`packGroups_encodeOp`). -/
theorem roundTripFromBytes : Obligations.RoundTripFromBytes := by
  intro c s t b hc hle hpe hre hpd hrd
  have hadm := dec_admitted_of_encodeOp hc (enc_admitted_of_le (bs := b) rfl hle)
  have hresp : decodeOp ⟨8 * b.length, (encodeOp ⟨b.length, b⟩).data⟩ = .ok b.length b := by
    rw [decodeOp_ok (encodeOp_alphabetic _) (Nat.mul_mod_right 8 _), Nat.mul_div_cancel_left _ (by decide)]
    exact congrArg _ (packGroups_encodeOp ⟨b.length, b⟩)
  rw [hrd]
  exact ⟨⟨_, exec_encode_busy hpe hre, rfl⟩, hadm, _, exec_decode_busy hpd hrd, rfl, hresp⟩

/-- Settles O23: DECODE answers with the packed groups, and ENCODE of them gives back the text
(`encodeOp_packGroups`). -/
theorem roundTripFromText : Obligations.RoundTripFromText := by
  intro c s text halpha hm hle hp hr
  have hlen : text.length = 8 * (text.length / 8) := by omega
  refine ⟨_, packGroups (bitsOf text) (text.length / 8), exec_decode_busy hp hr, decodeOp_ok halpha hm,
    enc_admitted_of_le (packGroups_length _ _) hle, fun u hpu hru => ?_⟩
  exact ⟨_, exec_encode_busy hpu hru, rfl, encodeOp_packGroups hlen halpha⟩

/-! ## The reference datapath -/

/-- At VALIDATE a BUSY DEC's internal step is the VALIDATE step (R104). -/
theorem decInternal_validate {s : State} (hp : s.dec.phase = .busy) (hs : s.dec.dStep = .validate) :
    decInternal s = decValidate s := by
  rw [decInternal, if_pos hp, hs]

/-- At CHECKLEN a BUSY DEC's internal step is the CHECKLEN step (R105). -/
theorem decInternal_checklen {s : State} (hp : s.dec.phase = .busy) (hs : s.dec.dStep = .checklen) :
    decInternal s = .next (decCheckLen s) := by
  rw [decInternal, if_pos hp, hs]

/-- At PACK a BUSY DEC's internal step is the PACK step (R106). -/
theorem decInternal_pack {s : State} (hp : s.dec.phase = .busy) (hs : s.dec.dStep = .pack) :
    decInternal s = decPack s := by
  rw [decInternal, if_pos hp, hs]

/-- The unit after the VALIDATE step of R104 on character `ch`. -/
theorem decValidate_char {s : State} {ch : Chr} (hp : s.dec.phase = .busy) (hs : s.dec.dStep = .validate)
    (hlt : s.dec.dK < s.dec.req.len) (hch : s.dec.req.data[s.dec.dK]? = some ch) :
    decValidate s = .next (s.setDec
      (if ch = high then { s.dec with dBits := s.dec.dBits ++ [true], dK := s.dec.dK + 1 }
      else if ch = low then { s.dec with dBits := s.dec.dBits ++ [false], dK := s.dec.dK + 1 }
      else { s.dec with phase := .done, resp := .invalidCharacter s.dec.dK ch })) := by
  have hsee := (decSees_iff ch s).2 ⟨hp, hs, hlt, hch⟩
  rw [decValidate_sees hsee, symInstr_eq]
  by_cases hhigh : ch = high
  · subst hhigh
    rw [if_pos rfl, if_pos rfl]
    exact execSymHigh_sees hsee
  · by_cases hlow : ch = low
    · subst hlow
      rw [if_neg hhigh, if_pos rfl, if_neg hhigh, if_pos rfl]
      exact execSymLow_sees hsee
    · rw [if_neg hhigh, if_neg hlow, if_neg hhigh, if_neg hlow]
      exact execSymInvalid_sees hsee (not_or.2 ⟨hhigh, hlow⟩)

/-- Settles O24: past the last character the step moves on to CHECKLEN, before it the character decides
(`decValidate_char`), and `d_k + 1 ≤ m` fits the counter. -/
theorem validateStep : Obligations.ValidateStep := by
  intro s rest ha hp hs
  have hstep : step s = decValidate (s.setAgenda rest) :=
    (step_cons ha).trans (decInternal_validate (s := s.setAgenda rest) hp hs)
  rw [hstep]
  refine ⟨fun hend => if_pos hend, fun ch hlt hch => ⟨fun hadm => ?_, ?_⟩⟩
  · obtain ⟨-, hfit⟩ := (DecRequest.admitted_iff _ _).1 hadm
    exact Nat.lt_of_le_of_lt hlt hfit
  · exact decValidate_char (s := s.setAgenda rest) hp hs hlt hch

/-- The unit after the CHECKLEN step of R105. -/
theorem decCheckLen_eq (s : State) :
    decCheckLen s = s.setDec
      (if s.dec.req.len % 8 ≠ 0 then { s.dec with phase := .done, resp := .invalidLength s.dec.req.len }
      else { s.dec with dStep := .pack }) := by
  by_cases hm : s.dec.req.len % 8 = 0
  · rw [decCheckLen, if_pos ((lengthOk_iff _).2 hm), if_neg (not_not_intro hm)]
  · rw [decCheckLen, if_neg (mt (lengthOk_iff _).1 hm), if_pos hm]
    rfl

/-- Settles O25, by the two outcomes of the length test (`decCheckLen_eq`). -/
theorem checkLengthStep : Obligations.CheckLengthStep := by
  intro s rest ha hp hs
  have hstep : step s = .next (decCheckLen (s.setAgenda rest)) :=
    (step_cons ha).trans (decInternal_checklen (s := s.setAgenda rest) hp hs)
  rw [hstep]
  exact congrArg _ (decCheckLen_eq (s.setAgenda rest))

/-- Below the last group, with the group's bits validated and a byte in the buffer for every group before it, a PACK
step appends the group's byte, whatever the bits and bytes are (R106). -/
theorem decPack_appends {s : State} (hlt : s.dec.dG < s.dec.req.len / 8)
    (hbits : 8 * s.dec.dG + 7 < s.dec.dBits.length) (hout : s.dec.dOut.length = s.dec.dG) :
    decPack s = .next (s.setDec { s.dec with
      dAcc := pack (groupAt s.dec.dBits s.dec.dG)
      dOut := s.dec.dOut ++ [pack (groupAt s.dec.dBits s.dec.dG)]
      dG := s.dec.dG + 1 }) := by
  have hwrite : outWrite s.dec.dOut s.dec.dG (pack (groupAt s.dec.dBits s.dec.dG)) =
      some (s.dec.dOut ++ [pack (groupAt s.dec.dBits s.dec.dG)]) := by
    rw [← hout, outWrite_append]
  rw [decPack, if_neg (Nat.ne_of_lt hlt), if_pos hbits, hwrite]

/-- Settles O26: the byte appended (`decPack_appends`) is the group's, and its accumulation from zero is
`pack_eight`. -/
theorem packStep : Obligations.PackStep := by
  intro s rest ha hp hs
  have hstep : step s = decPack (s.setAgenda rest) :=
    (step_cons ha).trans (decInternal_pack (s := s.setAgenda rest) hp hs)
  rw [hstep]
  refine ⟨fun hend => if_pos hend, fun t0 t1 t2 t3 t4 t5 t6 t7 hlt hout hgroup => ?_⟩
  have hbits : 8 * s.dec.dG + 7 < s.dec.dBits.length := by
    have hcount := congrArg List.length hgroup
    rw [List.length_take, List.length_drop] at hcount
    change min 8 _ = 8 at hcount
    omega
  refine ⟨pack (groupAt s.dec.dBits s.dec.dG), ?_, decPack_appends (s := s.setAgenda rest) hlt hbits hout⟩
  rw [groupAt, hgroup, pack_eight]

end Sys2Proof.Machine
end

section
/-! PROOFS. The invariant: what each move keeps of it (R16 to R25), and what it says of runs. -/

namespace Sys2Proof.Machine

/-! ## Widths and capacities -/

/-- Where ENC's datapath is on track of an admitted request, its registers are within their widths (R24). -/
theorem encWidths_of_onTrack {c : Config} {u : EncUnit} (hadm : u.req.admitted c = true) (hP : u.eP < 8)
    (ht : encOnTrack u) : encWidths c u := by
  obtain ⟨hI, -, hout⟩ := ht
  obtain ⟨hlen, hfit⟩ := (u.req.admitted_iff c).1 hadm
  refine ⟨Nat.lt_of_le_of_lt hI hfit, hP, ?_⟩
  have hmax : u.req.len ≤ c.maxEncLen := Nat.le_sub_one_of_lt hfit
  rw [hout, List.length_take, encodeOp_data_length, hlen]
  omega

/-- Where DEC's datapath is on track of an admitted request, its registers are within their widths (R25). -/
theorem decWidths_of_onTrack {c : Config} {u : DecUnit} (hc : c.wf = true) (hadm : u.req.admitted c = true)
    (ht : decOnTrack u) : decWidths c u := by
  obtain ⟨-, hbits, hstep⟩ := ht
  obtain ⟨hlen, hfit⟩ := (u.req.admitted_iff c).1 hadm
  have hpow := two_pow_posW hc
  have hmax : u.req.len ≤ c.maxDecLen := Nat.le_sub_one_of_lt hfit
  have hcount : u.dBits.length ≤ u.req.len := by
    rw [hbits, bitsOf_length, List.length_take, hlen]
    omega
  have hregs : u.dK ≤ u.req.len ∧ u.dG ≤ u.req.len / 8 ∧ u.dOut.length ≤ u.req.len / 8 := by
    cases hs : u.dStep with
    | validate =>
      rw [hs] at hstep
      obtain ⟨hK, hG, hO⟩ := hstep
      simp [hK, hG, hO]
    | checklen =>
      rw [hs] at hstep
      obtain ⟨hK, hG, hO⟩ := hstep
      simp [hK, hG, hO]
    | pack =>
      rw [hs] at hstep
      obtain ⟨hK, -, hG, hO⟩ := hstep
      simp [hK, hG, hO]
  obtain ⟨hK, hG, hO⟩ := hregs
  exact ⟨by omega, by omega, by omega, by omega⟩

/-! ## Reset -/

/-- The value 0 is within every width. -/
theorem resetFor_widths (c : Config) :
    encWidths c (State.resetFor c).enc ∧ decWidths c (State.resetFor c).dec :=
  ⟨⟨Nat.two_pow_pos _, Nat.zero_lt_succ 7, Nat.zero_le _⟩,
    ⟨Nat.two_pow_pos _, Nat.zero_le _, Nat.two_pow_pos _, Nat.zero_le _⟩⟩

/-- Settles O42: nothing is offered or recorded, and both units are IDLE. -/
theorem resetMeetsInvariant : Obligations.ResetMeetsInvariant := fun c hc =>
  { build := hc
    encWide := (resetFor_widths c).1
    decWide := (resetFor_widths c).2
    offers := ⟨nofun, nofun⟩
    encPhase := trivial
    decPhase := trivial
    encRecord := nofun
    decRecord := nofun }

/-- The reset step cuts every drawn value to its register, and keeps offers and records (R35, R127). -/
theorem Inv.resetStep {s : State} (h : Inv s) : Inv (resetStep s) where
  build := h.build
  encWide := ⟨Nat.mod_lt _ (Nat.two_pow_pos _), Nat.mod_lt _ (by decide), List.length_take_le _ _⟩
  decWide := ⟨Nat.mod_lt _ (Nat.two_pow_pos _), List.length_take_le _ _, Nat.mod_lt _ (Nat.two_pow_pos _),
    List.length_take_le _ _⟩
  offers := h.offers
  encPhase := trivial
  decPhase := trivial
  encRecord := h.encRecord
  decRecord := h.decRecord

/-! ## Offer, accept and deliver -/

/-- A host's offer that decodes is admitted, so it may stand on its channel; any other is refused (R19). -/
theorem Inv.hostOffer {s : State} (h : Inv s) (w : CodeWord) :
    (∃ t, hostOffer w s = .next t ∧ Inv t) ∨
      (offerable s.cfg w = false ∧ ∃ r, hostOffer w s = .refused r) := by
  obtain ⟨henc, hdec⟩ := h.offers
  unfold Machine.hostOffer offerable
  split
  · next r hr =>
    have hadm := (decode_ok_encode hr).2
    refine .inl ⟨_, rfl, { h with offers := ⟨fun q hq => ?_, hdec⟩ }⟩
    obtain hq | hq := List.mem_append.1 hq
    · exact henc q hq
    · exact List.mem_singleton.1 hq ▸ hadm
  · next r hr =>
    have hadm := (decode_ok_decode hr).2
    refine .inl ⟨_, rfl, { h with offers := ⟨henc, fun q hq => ?_⟩ }⟩
    obtain hq | hq := List.mem_append.1 hq
    · exact hdec q hq
    · exact List.mem_singleton.1 hq ▸ hadm
  · next i hne hnd hd =>
    refine .inr ⟨?_, _, rfl⟩
    rw [hd]
    cases i with
    | encode r => exact (hne r rfl).elim
    | decode r => exact (hnd r rfl).elim
    | symHigh => rfl
    | symLow => rfl
    | symInvalid c => rfl
  · next e he =>
    refine .inr ⟨?_, _, rfl⟩
    rw [he]

/-- At the initialisation of R82 ENC's datapath is on track. -/
theorem encOnTrack_init (u : EncUnit) (hI : u.eI = 0) (hP : u.eP = 7) (hO : u.eOut = []) : encOnTrack u := by
  refine ⟨by omega, fun _ => hP, ?_⟩
  rw [hI, hP, hO]
  rfl

/-- At the initialisation of R103 DEC's datapath is on track. -/
theorem decOnTrack_init (u : DecUnit) (hs : u.dStep = .validate) (hK : u.dK = 0) (hB : u.dBits = [])
    (hG : u.dG = 0) (hO : u.dOut = []) : decOnTrack u := by
  unfold decOnTrack
  rw [hs, hK, hB]
  exact ⟨nofun, rfl, Nat.zero_le _, hG, hO⟩

theorem Inv.acceptEnc {s : State} (h : Inv s) : Inv (acceptEnc s) := by
  obtain ⟨henc, hdec⟩ := h.offers
  unfold Machine.acceptEnc
  split
  · next r rest hp ho =>
    rw [ho] at henc
    have hadm := henc r List.mem_cons_self
    have ht := encOnTrack_init { s.enc with phase := .busy, req := r, eI := 0, eP := 7, eOut := [] } rfl rfl rfl
    exact
      { h with
        encWide := encWidths_of_onTrack (u := { s.enc with
          phase := .busy, req := r, eI := 0, eP := 7, eOut := [] }) hadm (Nat.lt_succ_self 7) ht
        offers := ⟨fun q hq => henc q (List.mem_cons_of_mem _ hq), hdec⟩
        encPhase := ⟨hadm, rfl, ht⟩
        encRecord := List.forall_mem_cons.2 ⟨⟨hadm, nofun⟩, h.encRecord⟩ }
  · exact h

theorem Inv.acceptDec {s : State} (h : Inv s) : Inv (acceptDec s) := by
  obtain ⟨henc, hdec⟩ := h.offers
  unfold Machine.acceptDec
  split
  · next r rest hp ho =>
    rw [ho] at hdec
    have hadm := hdec r List.mem_cons_self
    have ht := decOnTrack_init { s.dec with
      phase := .busy, req := r, dStep := .validate, dK := 0, dBits := [], dG := 0, dOut := [] } rfl rfl rfl rfl rfl
    exact
      { h with
        decWide := decWidths_of_onTrack (u := { s.dec with
          phase := .busy, req := r, dStep := .validate, dK := 0, dBits := [], dG := 0, dOut := [] }) h.build hadm ht
        offers := ⟨henc, fun q hq => hdec q (List.mem_cons_of_mem _ hq)⟩
        decPhase := ⟨hadm, rfl, ht⟩
        decRecord := List.forall_mem_cons.2 ⟨⟨hadm, nofun⟩, h.decRecord⟩ }
  · exact h

/-- The record of a DONE ENC ends with the request its response answers (R16, R20). -/
theorem Inv.encLog_done {s : State} (h : Inv s) (hp : s.enc.phase = .done) :
    ∃ r older, s.encLog = (r, none) :: older ∧ s.enc.resp = encodeOp r := by
  obtain ⟨r, hhead, hresp⟩ := h.encDone hp
  obtain ⟨older, hlog⟩ := List.head?_eq_some_iff.1 hhead
  exact ⟨r, older, hlog, hresp⟩

theorem Inv.decLog_done {s : State} (h : Inv s) (hp : s.dec.phase = .done) :
    ∃ r older, s.decLog = (r, none) :: older ∧ s.dec.resp = decodeOp r := by
  obtain ⟨r, hhead, hresp⟩ := h.decDone hp
  obtain ⟨older, hlog⟩ := List.head?_eq_some_iff.1 hhead
  exact ⟨r, older, hlog, hresp⟩

theorem Inv.deliverEnc {s : State} (h : Inv s) : Inv (deliverEnc s) := by
  by_cases hp : s.enc.phase = .done
  · obtain ⟨r, older, hlog, hresp⟩ := h.encLog_done hp
    have hrecord := h.encRecord
    unfold encLogOk at hrecord
    rw [hlog] at hrecord
    obtain ⟨⟨hadm, -⟩, hold⟩ := List.forall_mem_cons.1 hrecord
    rw [deliverEnc_done hp, hlog, hresp]
    exact
      { h with
        encPhase := trivial
        encRecord := List.forall_mem_cons.2 ⟨⟨hadm, fun p hp => (Option.some.inj hp).symm⟩, hold⟩ }
  · rw [deliverEnc_waits hp]
    exact h

theorem Inv.deliverDec {s : State} (h : Inv s) : Inv (deliverDec s) := by
  by_cases hp : s.dec.phase = .done
  · obtain ⟨r, older, hlog, hresp⟩ := h.decLog_done hp
    have hrecord := h.decRecord
    unfold decLogOk at hrecord
    rw [hlog] at hrecord
    obtain ⟨⟨hadm, -⟩, hold⟩ := List.forall_mem_cons.1 hrecord
    rw [deliverDec_done hp, hlog, hresp]
    exact
      { h with
        decPhase := trivial
        decRecord := List.forall_mem_cons.2 ⟨⟨hadm, fun p hp => (Option.some.inj hp).symm⟩, hold⟩ }
  · rw [deliverDec_waits hp]
    exact h

/-! ## The datapaths -/

/-- How many characters ENC's datapath has still to emit (R84). -/
def encLeft (u : EncUnit) : Nat := 8 * (u.req.len - u.eI) - (7 - u.eP)

/-- A datapath step of ENC on track responds with `F_ENC` of the request, or stays BUSY and on track with fewer
characters left (R83, R84). -/
theorem encInternal_track {s : State} (hp : s.enc.phase = .busy) (hlen : s.enc.req.data.length = s.enc.req.len)
    (hP : s.enc.eP < 8) (ht : encOnTrack s.enc) :
    encInternal s = .next (respondEnc (encodeOp s.enc.req) s) ∨
      ∃ u, encInternal s = .next (s.setEnc u) ∧ u.phase = .busy ∧ u.req = s.enc.req ∧ u.eP < 8 ∧ encOnTrack u ∧
        encLeft u < encLeft s.enc := by
  obtain hlt | heq := Nat.lt_or_eq_of_le ht.1
  · obtain ⟨b, -, hstep, ht'⟩ := encInternal_emits hp hlen hP ht hlt
    rw [encAdvance_eq] at hstep ht'
    refine .inr ⟨_, hstep, hp, rfl, ?_, ht', ?_⟩
    · simp only
      split <;> omega
    · simp only [encLeft]
      split <;> omega
  · exact .inl (encInternal_completes hp hlen ht heq)

/-- ENC going on BUSY and on track with its request keeps the invariant. -/
theorem Inv.encGoesOn {s : State} (h : Inv s) {u : EncUnit} (hb : s.enc.phase = .busy) (hp : u.phase = .busy)
    (hr : u.req = s.enc.req) (hP : u.eP < 8) (ht : encOnTrack u) : Inv (s.setEnc u) := by
  obtain ⟨hadm, hhead, -⟩ := h.encBusy hb
  rw [← hr] at hadm hhead
  refine h.withEnc u (encWidths_of_onTrack hadm hP ht) ?_
  unfold encPhaseOk
  rw [State.setEnc_enc, hp]
  exact ⟨hadm, hhead, ht⟩

/-- DEC going on BUSY and on track with its request keeps the invariant. -/
theorem Inv.decGoesOn {s : State} (h : Inv s) {u : DecUnit} (hb : s.dec.phase = .busy) (hp : u.phase = .busy)
    (hr : u.req = s.dec.req) (ht : decOnTrack u) : Inv (s.setDec u) := by
  obtain ⟨hadm, hhead, -⟩ := h.decBusy hb
  rw [← hr] at hadm hhead
  refine h.withDec u (decWidths_of_onTrack h.build hadm ht) ?_
  unfold decPhaseOk
  rw [State.setDec_dec, hp]
  exact ⟨hadm, hhead, ht⟩

/-- What a BUSY ENC's datapath step does (R83, R84), from the invariant. -/
theorem Inv.encInternal_track {s : State} (h : Inv s) (hp : s.enc.phase = .busy) :
    encInternal s = .next (Machine.respondEnc (encodeOp s.enc.req) s) ∨
      ∃ u, encInternal s = .next (s.setEnc u) ∧ u.phase = .busy ∧ u.req = s.enc.req ∧ u.eP < 8 ∧ encOnTrack u ∧
        encLeft u < encLeft s.enc := by
  obtain ⟨hadm, -, ht⟩ := h.encBusy hp
  obtain ⟨-, hP, -⟩ := h.encWide
  exact Machine.encInternal_track hp ((EncRequest.admitted_iff _ _).1 hadm).1 hP ht

/-- What a BUSY DEC's datapath step does (R104 to R107), from the invariant. -/
theorem Inv.decInternal_track {s : State} (h : Inv s) (hp : s.dec.phase = .busy) :
    decInternal s = .next (Machine.respondDec (decodeOp s.dec.req) s) ∨
      ∃ u, decInternal s = .next (s.setDec u) ∧ u.phase = .busy ∧ u.req = s.dec.req ∧ decOnTrack u ∧
        decLeft u < decLeft s.dec := by
  obtain ⟨hadm, -, ht⟩ := h.decBusy hp
  exact Machine.decInternal_track hp ((DecRequest.admitted_iff _ _).1 hadm).1 ht

theorem encInternal_waits {s : State} (hp : s.enc.phase ≠ .busy) : encInternal s = .next s := if_neg hp

theorem decInternal_waits {s : State} (hp : s.dec.phase ≠ .busy) : decInternal s = .next s := if_neg hp

theorem computeEnc_waits {s : State} (hp : s.enc.phase ≠ .busy) : computeEnc s = .next s := if_neg hp

theorem computeDec_waits {s : State} (hp : s.dec.phase ≠ .busy) : computeDec s = .next s := if_neg hp

theorem Inv.computeEnc {s : State} (h : Inv s) : ∃ t, computeEnc s = .next t ∧ Inv t := by
  by_cases hp : s.enc.phase = .busy
  · exact ⟨_, computeEnc_eq hp (h.encBusy hp).1, h.respondEnc hp rfl⟩
  · exact ⟨s, computeEnc_waits hp, h⟩

theorem Inv.computeDec {s : State} (h : Inv s) : ∃ t, computeDec s = .next t ∧ Inv t := by
  by_cases hp : s.dec.phase = .busy
  · exact ⟨_, computeDec_eq hp (h.decBusy hp).1, h.respondDec hp rfl⟩
  · exact ⟨s, computeDec_waits hp, h⟩

theorem Inv.encInternal {s : State} (h : Inv s) : ∃ t, encInternal s = .next t ∧ Inv t := by
  by_cases hp : s.enc.phase = .busy
  · obtain hdone | ⟨u, hgo, hu, hr, hP, ht, -⟩ := h.encInternal_track hp
    · exact ⟨_, hdone, h.respondEnc hp rfl⟩
    · exact ⟨_, hgo, h.encGoesOn hp hu hr hP ht⟩
  · exact ⟨s, encInternal_waits hp, h⟩

theorem Inv.decInternal {s : State} (h : Inv s) : ∃ t, decInternal s = .next t ∧ Inv t := by
  by_cases hp : s.dec.phase = .busy
  · obtain hdone | ⟨u, hgo, hu, hr, ht, -⟩ := h.decInternal_track hp
    · exact ⟨_, hdone, h.respondDec hp rfl⟩
    · exact ⟨_, hgo, h.decGoesOn hp hu hr ht⟩
  · exact ⟨s, decInternal_waits hp, h⟩

/-! ## Every move and every step -/

/-- Every move from a state that meets the invariant answers a state that meets it, but for an offer that is refused
at the interface. -/
theorem Inv.runEvent {s : State} (h : Inv s) (e : Event) :
    (∃ t, runEvent e s = .next t ∧ Inv t) ∨
      ∃ w, e = .offer w ∧ offerable s.cfg w = false ∧ ∃ r, runEvent e s = .refused r := by
  cases e with
  | offer w => exact (h.hostOffer w).imp_right fun ⟨hw, hr⟩ => ⟨w, rfl, hw, hr⟩
  | accept u =>
    cases u
    · exact .inl ⟨_, rfl, h.acceptEnc⟩
    · exact .inl ⟨_, rfl, h.acceptDec⟩
  | compute u =>
    cases u
    · exact .inl h.computeEnc
    · exact .inl h.computeDec
  | internal u =>
    cases u
    · exact .inl h.encInternal
    · exact .inl h.decInternal
  | take u =>
    cases u
    · exact .inl ⟨_, rfl, h.deliverEnc⟩
    · exact .inl ⟨_, rfl, h.deliverDec⟩
  | reset => exact .inl ⟨_, rfl, h.resetStep⟩

/-- The same of a step, whose offer stands on the agenda. -/
theorem Inv.step {s : State} (h : Inv s) :
    (∃ t, step s = .next t ∧ Inv t) ∨
      ∃ w, Event.offer w ∈ s.agenda ∧ offerable s.cfg w = false ∧ ∃ r, step s = .refused r := by
  cases hmove : nextMove s with
  | none => exact .inl ⟨s, step_waits hmove, h⟩
  | some move =>
    obtain ⟨e, rest⟩ := move
    rw [step_of_nextMove hmove]
    refine ((h.withAgenda rest).runEvent e).imp_right ?_
    rintro ⟨w, rfl, hw, hr⟩
    exact ⟨w, (nextMove_offer hmove w).1 rfl, hw, hr⟩

theorem Inv.of_step {s t : State} (h : Inv s) (hst : Machine.step s = .next t) : Inv t := by
  obtain ⟨t', ht', hinv⟩ | ⟨-, -, -, r, hr⟩ := h.step
  · cases hst.symm.trans ht'
    exact hinv
  · cases hst.symm.trans hr

/-- Settles O43, by the invariant of every move. -/
theorem stepKeepsInvariant : Obligations.StepKeepsInvariant := fun _ _ h hst => h.of_step hst

/-- Settles O45: the only stop of `Inv.step` is a refusal. -/
theorem stepNeverFaults : Obligations.StepNeverFaults := by
  intro s f h hf
  obtain ⟨t, ht, -⟩ | ⟨-, -, -, r, hr⟩ := h.step
  · cases hf.symm.trans ht
  · cases hf.symm.trans hr

/-- No step changes the build, and every offer still to come was to come before. -/
theorem step_frame {s t : State} (h : step s = .next t) :
    t.cfg = s.cfg ∧ ∀ w, Event.offer w ∈ t.agenda → Event.offer w ∈ s.agenda := by
  obtain ⟨-, rfl⟩ | ⟨e, rest, hmove, ⟨-, rfl⟩ | heffect⟩ := step_effect h
  · exact ⟨rfl, fun _ => id⟩
  · exact ⟨rfl, fun w => (nextMove_offer hmove w).2⟩
  · obtain ⟨hcfg, hagenda, -⟩ := effect_frame heffect
    exact ⟨hcfg, fun w hw => (nextMove_offer hmove w).2 (by rwa [hagenda] at hw)⟩

/-- Settles O44: a framed offer is not refused, and no step adds an offer to come. -/
theorem wellFramedRunsNeverStop : Obligations.WellFramedRunsNeverStop := by
  intro s h hframing
  obtain ⟨t, hst, hinv⟩ | ⟨w, hw, hbad, -⟩ := h.step
  · obtain ⟨hcfg, hoffers⟩ := step_frame hst
    exact ⟨t, hst, hinv, fun w hw => hcfg ▸ hframing w (hoffers w hw)⟩
  · cases (hframing w hw).symm.trans hbad

/-! ## Runs -/

/-- What a step keeps, a run of any number of steps keeps. -/
theorem stepN_keeps {P : State → Prop} (hstep : ∀ s t, P s → step s = .next t → P t) (k : Nat) {s t : State}
    (hs : P s) (h : stepN k s = .next t) : P t := by
  induction k generalizing s with
  | zero => cases h; exact hs
  | succ k ih =>
    rw [stepN] at h
    split at h
    · next u hu => exact ih (hstep s u hs hu) h
    · cases h
    · cases h

theorem Inv.of_stepN {s t : State} {k : Nat} (h : Inv s) (hrun : stepN k s = .next t) : Inv t :=
  stepN_keeps (fun _ _ => Inv.of_step) k h hrun

/-- Settles O46: the records of every state that meets the invariant are correct. -/
theorem deliveredResponsesAreCorrect : Obligations.DeliveredResponsesAreCorrect := by
  intro s t k h hrun
  have hinv := h.of_stepN hrun
  exact ⟨fun r p hmem => (hinv.encRecord _ hmem).2 p rfl, fun r p hmem => (hinv.decRecord _ hmem).2 p rfl⟩

end Sys2Proof.Machine
end

section
/-! PROOFS. One response per request: the ledger of a unit, what a move does to it, and what a run shows (R17, R20, R22,
R46, R142). -/

namespace Sys2Proof.Machine

/-! ## The ledger of a unit -/

/-- What a unit's transactions show: its phase, the offers on its channel and its record. ENC and DEC are the same in
this (R15, R16). -/
structure Ledger (α β : Type) where
  phase  : Phase
  offers : List α
  log    : List (α × Option β)

def encLedger (s : State) : Ledger EncRequest EncResponse := ⟨s.enc.phase, s.encOffers, s.encLog⟩

def decLedger (s : State) : Ledger DecRequest DecResponse := ⟨s.dec.phase, s.decOffers, s.decLog⟩

/-- What a move other than a reset does to the ledger of a unit with operation `op`, where it offers `new`. -/
inductive LedgerStep {α β : Type} (op : α → β) : List α → Ledger α β → Ledger α β → Prop
  | keeps {new offers : List α} {log : List (α × Option β)} {p q : Phase} (hidle : q = .idle ↔ p = .idle) :
      LedgerStep op new ⟨p, offers, log⟩ ⟨q, offers ++ new, log⟩
  | accepts {r : α} {offers : List α} {log : List (α × Option β)} :
      LedgerStep op [] ⟨.idle, r :: offers, log⟩ ⟨.busy, offers, (r, none) :: log⟩
  | answers {r : α} {offers : List α} {older : List (α × Option β)} :
      LedgerStep op [] ⟨.done, offers, (r, none) :: older⟩ ⟨.idle, offers, (r, some (op r)) :: older⟩

/-- The ledger after a reset: the unit is IDLE, its offers and its record are untouched (R127). -/
def Ledger.afterReset {α β : Type} (l : Ledger α β) : Ledger α β := { l with phase := .idle }

/-- The part of the record that no later step changes: all of it at an IDLE unit, all but the request being served at
any other. -/
def Ledger.settled {α β : Type} (l : Ledger α β) : List (α × Option β) :=
  if l.phase = .idle then l.log else l.log.tail

/-- Every request that has been offered, in order: those accepted, then those standing. -/
def Ledger.requests {α β : Type} (l : Ledger α β) : List α := l.log.reverse.map Prod.fst ++ l.offers

section
variable {α β : Type} {op : α → β} {new : List α} {l l' : Ledger α β}

theorem Ledger.settled_suffix (l : Ledger α β) : l.settled <:+ l.log := by
  unfold Ledger.settled
  split
  · exact List.suffix_rfl
  · exact List.tail_suffix _

/-- A settled record only grows, by answered requests. -/
theorem LedgerStep.settled (h : LedgerStep op new l l') :
    l'.settled = l.settled ∨ ∃ r, l'.settled = (r, some (op r)) :: l.settled := by
  cases h with
  | keeps hidle => exact .inl (if_congr hidle rfl rfl)
  | accepts => exact .inl rfl
  | answers => exact .inr ⟨_, rfl⟩

theorem LedgerStep.settled_suffix (h : LedgerStep op new l l') : l.settled <:+ l'.settled := by
  obtain h | ⟨r, h⟩ := h.settled
  · rw [h]
  · rw [h]; exact List.suffix_cons _ _

theorem Ledger.settled_suffix_afterReset (l : Ledger α β) : l.settled <:+ l.afterReset.settled :=
  l.settled_suffix

/-- No request is lost or changes its place. -/
theorem LedgerStep.requests (h : LedgerStep op new l l') : l'.requests = l.requests ++ new := by
  cases h with
  | keeps => exact (List.append_assoc _ _ _).symm
  | accepts => simp [Ledger.requests]
  | answers => simp [Ledger.requests]

/-- The ways a record changes: not at all, by an accepted request with no response, by the response of the request
accepted last. -/
theorem LedgerStep.log (h : LedgerStep op new l l') :
    l'.log = l.log ∨ (∃ r, l.phase = .idle ∧ l'.log = (r, none) :: l.log) ∨
      ∃ r older, l.phase = .done ∧ l.log = (r, none) :: older ∧ l'.log = (r, some (op r)) :: older := by
  cases h with
  | keeps => exact .inl rfl
  | accepts => exact .inr (.inl ⟨_, rfl, rfl⟩)
  | answers => exact .inr (.inr ⟨_, _, rfl, rfl, rfl⟩)

/-- A move that leaves phase, offers and record alone. -/
theorem LedgerStep.same (l : Ledger α β) : LedgerStep op [] l l := by
  have h := LedgerStep.keeps (op := op) (new := []) (offers := l.offers) (log := l.log) (Iff.refl (l.phase = .idle))
  rwa [List.append_nil] at h

/-- A move of a unit that is BUSY and does not deliver. -/
theorem LedgerStep.goesOn {offers : List α} {log : List (α × Option β)} {p q : Phase} (hp : p ≠ .idle)
    (hq : q ≠ .idle) : LedgerStep op [] ⟨p, offers, log⟩ ⟨q, offers, log⟩ := by
  have h := LedgerStep.keeps (op := op) (new := []) (offers := offers) (log := log) (iff_of_false hq hp)
  rwa [List.append_nil] at h

end

/-! ## What a move does to the ledgers -/

/-- An offer that decodes adds its request to the channel of its unit (R17, R55). -/
theorem hostOffer_offers {w : CodeWord} {s t : State} (h : hostOffer w s = .next t) :
    t = (s.setEncOffers (s.encOffers ++ encRequestsIn s.cfg [.offer w])).setDecOffers
      (s.decOffers ++ decRequestsIn s.cfg [.offer w]) := by
  unfold hostOffer at h
  split at h
  · next r hr =>
    cases h
    simp [encRequestsIn, decRequestsIn, hr, offerEnc, State.setEncOffers, State.setDecOffers]
  · next r hr =>
    cases h
    simp [encRequestsIn, decRequestsIn, hr, offerDec, State.setEncOffers, State.setDecOffers]
  · cases h
  · cases h

/-- What a move does to ENC's ledger. -/
theorem Inv.encLedgerStep {s t : State} {e : Event} (hinv : Inv s) (hreset : e ≠ .reset)
    (h : Machine.runEvent e s = .next t) :
    LedgerStep encodeOp (encRequestsIn s.cfg [e]) (encLedger s) (encLedger t) := by
  cases e with
  | offer w =>
    rw [hostOffer_offers h]
    exact .keeps Iff.rfl
  | accept u =>
    cases u <;> cases h
    · unfold Machine.acceptEnc
      split
      · next r rest hp ho =>
        unfold encLedger
        rw [hp, ho]
        exact .accepts
      · exact .same _
    · unfold Machine.acceptDec
      split <;> exact .same _
  | compute u =>
    cases u
    · by_cases hp : s.enc.phase = .busy
      · cases (computeEnc_eq hp (hinv.encBusy hp).1).symm.trans h
        exact .goesOn (by rw [hp]; nofun) nofun
      · cases (computeEnc_waits hp).symm.trans h
        exact .same _
    · rw [(runEvent_unitStep h).2 (.inl rfl)]
      exact .same _
  | internal u =>
    cases u
    · by_cases hp : s.enc.phase = .busy
      · obtain hdone | ⟨u, hgo, hu, -⟩ := hinv.encInternal_track hp
        · cases hdone.symm.trans h
          exact .goesOn (by rw [hp]; nofun) nofun
        · cases hgo.symm.trans h
          exact .goesOn (by rw [hp]; nofun) (by rw [State.setEnc_enc, hu]; nofun)
      · cases (encInternal_waits hp).symm.trans h
        exact .same _
    · rw [(runEvent_unitStep h).2 (.inr rfl)]
      exact .same _
  | take u =>
    cases u <;> cases h
    · by_cases hp : s.enc.phase = .done
      · obtain ⟨r, older, hlog, hresp⟩ := hinv.encLog_done hp
        rw [deliverEnc_done hp]
        unfold encLedger
        rw [hlog, hp, hresp]
        exact .answers
      · rw [deliverEnc_waits hp]
        exact .same _
    · unfold Machine.deliverDec
      split <;> exact .same _
  | reset => exact absurd rfl hreset

/-- What a move does to DEC's ledger. -/
theorem Inv.decLedgerStep {s t : State} {e : Event} (hinv : Inv s) (hreset : e ≠ .reset)
    (h : Machine.runEvent e s = .next t) :
    LedgerStep decodeOp (decRequestsIn s.cfg [e]) (decLedger s) (decLedger t) := by
  cases e with
  | offer w =>
    rw [hostOffer_offers h]
    exact .keeps Iff.rfl
  | accept u =>
    cases u <;> cases h
    · unfold Machine.acceptEnc
      split <;> exact .same _
    · unfold Machine.acceptDec
      split
      · next r rest hp ho =>
        unfold decLedger
        rw [hp, ho]
        exact .accepts
      · exact .same _
  | compute u =>
    cases u
    · rw [(runEvent_unitStep h).1 (.inl rfl)]
      exact .same _
    · by_cases hp : s.dec.phase = .busy
      · cases (computeDec_eq hp (hinv.decBusy hp).1).symm.trans h
        exact .goesOn (by rw [hp]; nofun) nofun
      · cases (computeDec_waits hp).symm.trans h
        exact .same _
  | internal u =>
    cases u
    · rw [(runEvent_unitStep h).1 (.inr rfl)]
      exact .same _
    · by_cases hp : s.dec.phase = .busy
      · obtain hdone | ⟨u, hgo, hu, -⟩ := hinv.decInternal_track hp
        · cases hdone.symm.trans h
          exact .goesOn (by rw [hp]; nofun) nofun
        · cases hgo.symm.trans h
          exact .goesOn (by rw [hp]; nofun) (by rw [State.setDec_dec, hu]; nofun)
      · cases (decInternal_waits hp).symm.trans h
        exact .same _
  | take u =>
    cases u <;> cases h
    · unfold Machine.deliverEnc
      split <;> exact .same _
    · by_cases hp : s.dec.phase = .done
      · obtain ⟨r, older, hlog, hresp⟩ := hinv.decLog_done hp
        rw [deliverDec_done hp]
        unfold decLedger
        rw [hlog, hp, hresp]
        exact .answers
      · rw [deliverDec_waits hp]
        exact .same _
  | reset => exact absurd rfl hreset

/-! ## What a step does to the ledgers -/

/-- No move writes the agenda or the build. -/
theorem runEvent_frame {e : Event} {s t : State} (h : runEvent e s = .next t) :
    t.cfg = s.cfg ∧ t.agenda = s.agenda := by
  obtain ⟨-, rfl⟩ | heffect := runEvent_effect h
  · exact ⟨rfl, rfl⟩
  · obtain ⟨hcfg, hagenda, -⟩ := effect_frame heffect
    exact ⟨hcfg, hagenda⟩

/-- A step waits, or makes the move that stands first on the agenda or, with none there, the block's own. -/
theorem step_event {s t : State} (h : step s = .next t) :
    (t = s ∧ s.agenda = []) ∨ ∃ e, runEvent e (s.setAgenda t.agenda) = .next t ∧
      (s.agenda = e :: t.agenda ∨ s.agenda = [] ∧ t.agenda = [] ∧ ownMove s = some e) := by
  cases hmove : nextMove s with
  | none =>
    cases (step_waits hmove).symm.trans h
    refine .inl ⟨rfl, ?_⟩
    cases ha : s.agenda with
    | nil => rfl
    | cons e rest => cases (nextMove_cons ha).symm.trans hmove
  | some move =>
    obtain ⟨e, rest⟩ := move
    rw [step_of_nextMove hmove] at h
    obtain rfl : t.agenda = rest := (runEvent_frame h).2
    exact .inr ⟨e, h, nextMove_some hmove⟩

/-- A step changes ENC's ledger by a reset or by one move. -/
theorem Inv.encLedger_step {s t : State} (hinv : Inv s) (h : Machine.step s = .next t) :
    encLedger t = (encLedger s).afterReset ∨ ∃ new, LedgerStep encodeOp new (encLedger s) (encLedger t) := by
  obtain ⟨rfl, -⟩ | ⟨e, hrun, -⟩ := step_event h
  · exact .inr ⟨[], .same _⟩
  · by_cases hreset : e = .reset
    · subst hreset
      exact .inl (congrArg encLedger (Host.Outcome.next.inj hrun).symm)
    · exact .inr ⟨_, (hinv.withAgenda t.agenda).encLedgerStep hreset hrun⟩

/-- A step changes DEC's ledger by a reset or by one move. -/
theorem Inv.decLedger_step {s t : State} (hinv : Inv s) (h : Machine.step s = .next t) :
    decLedger t = (decLedger s).afterReset ∨ ∃ new, LedgerStep decodeOp new (decLedger s) (decLedger t) := by
  obtain ⟨rfl, -⟩ | ⟨e, hrun, -⟩ := step_event h
  · exact .inr ⟨[], .same _⟩
  · by_cases hreset : e = .reset
    · subst hreset
      exact .inl (congrArg decLedger (Host.Outcome.next.inj hrun).symm)
    · exact .inr ⟨_, (hinv.withAgenda t.agenda).decLedgerStep hreset hrun⟩

/-! ## Records are final -/

/-- A step keeps the settled part of each record. -/
theorem Inv.settled_step {s t : State} (hinv : Inv s) (h : Machine.step s = .next t) :
    (encLedger s).settled <:+ (encLedger t).settled ∧ (decLedger s).settled <:+ (decLedger t).settled := by
  constructor
  · obtain hreset | ⟨new, hstep⟩ := hinv.encLedger_step h
    · rw [hreset]; exact Ledger.settled_suffix_afterReset _
    · exact hstep.settled_suffix
  · obtain hreset | ⟨new, hstep⟩ := hinv.decLedger_step h
    · rw [hreset]; exact Ledger.settled_suffix_afterReset _
    · exact hstep.settled_suffix

/-- A run keeps the settled part of each record. -/
theorem Inv.settled_stepN {s t : State} {k : Nat} (hinv : Inv s) (hrun : stepN k s = .next t) :
    (encLedger s).settled <:+ (encLedger t).settled ∧ (decLedger s).settled <:+ (decLedger t).settled := by
  have hkeeps : ∀ u v : State,
      (Inv u ∧ (encLedger s).settled <:+ (encLedger u).settled ∧ (decLedger s).settled <:+ (decLedger u).settled) →
      Machine.step u = .next v →
      Inv v ∧ (encLedger s).settled <:+ (encLedger v).settled ∧ (decLedger s).settled <:+ (decLedger v).settled := by
    rintro u v ⟨hu, henc, hdec⟩ hstep
    obtain ⟨henc', hdec'⟩ := hu.settled_step hstep
    exact ⟨hu.of_step hstep, henc.trans henc', hdec.trans hdec'⟩
  exact (stepN_keeps hkeeps k ⟨hinv, List.suffix_rfl, List.suffix_rfl⟩ hrun).2

/-- Settles O47: at an IDLE unit the whole record is settled, and a settled record only grows. -/
theorem idleRecordsAreFinal : Obligations.IdleRecordsAreFinal := by
  intro s t k hinv hrun
  obtain ⟨henc, hdec⟩ := hinv.settled_stepN hrun
  refine ⟨fun hp => ?_, fun hp => ?_⟩
  · rw [Ledger.settled, if_pos (by exact hp)] at henc
    exact henc.trans (Ledger.settled_suffix _)
  · rw [Ledger.settled, if_pos (by exact hp)] at hdec
    exact hdec.trans (Ledger.settled_suffix _)

/-- Settles O48: the ways a record changes in a step are those of its ledger (`LedgerStep.log`). -/
theorem oneResponsePerRequest : Obligations.OneResponsePerRequest := by
  intro s t hinv h
  constructor
  · obtain hreset | ⟨new, hstep⟩ := hinv.encLedger_step h
    · exact .inl (congrArg Ledger.log hreset)
    · exact hstep.log
  · obtain hreset | ⟨new, hstep⟩ := hinv.decLedger_step h
    · exact .inl (congrArg Ledger.log hreset)
    · exact hstep.log

/-! ## What a run shows -/

/-- Of the requests `all`, those in `coming` are still to be offered, the others are in the ledger, and every settled
one has been answered with its operation. -/
def Ledger.Serves {α β : Type} (op : α → β) (all coming : List α) (l : Ledger α β) : Prop :=
  l.requests ++ coming = all ∧ ∀ e ∈ l.settled, e.2 = some (op e.1)

section
variable {α β : Type} {op : α → β} {new all coming : List α} {l l' : Ledger α β}

theorem LedgerStep.serves (h : LedgerStep op new l l') (hs : l.Serves op all (new ++ coming)) :
    l'.Serves op all coming := by
  obtain ⟨hall, hsettled⟩ := hs
  refine ⟨by rw [h.requests, List.append_assoc, hall], ?_⟩
  obtain h | ⟨r, h⟩ := h.settled
  · rwa [h]
  · rw [h]
    exact List.forall_mem_cons.2 ⟨rfl, hsettled⟩

/-- A record in which every request is answered with its operation is its requests, each with that answer. -/
theorem map_fst_answered {log : List (α × Option β)} (h : ∀ e ∈ log, e.2 = some (op e.1)) :
    (log.map Prod.fst).map (fun r => (r, some (op r))) = log := by
  have hid : ∀ e ∈ log, ((fun r => (r, some (op r))) ∘ Prod.fst) e = id e :=
    fun e he => Prod.ext rfl (h e he).symm
  rw [List.map_map, List.map_congr_left hid, List.map_id]

/-- At an IDLE unit with nothing offered or to come, the record shows every request with its answer. -/
theorem Ledger.Serves.shown (hs : l.Serves op all []) (hidle : l.phase = .idle) (hoffers : l.offers = []) :
    l.log.reverse = all.map fun r => (r, some (op r)) := by
  obtain ⟨rfl, hsettled⟩ := hs
  rw [Ledger.settled, if_pos hidle] at hsettled
  rw [Ledger.requests, hoffers, List.append_nil, List.append_nil, map_fst_answered]
  exact fun e he => hsettled e (List.mem_reverse.1 he)

/-- A unit that starts IDLE, with nothing offered and every request answered, and what it shows. -/
theorem Ledger.serves_of_answered (coming : List α) (hidle : l.phase = .idle) (hoffers : l.offers = [])
    (hlog : ∀ e ∈ l.log, e.2 = some (op e.1)) :
    ∃ before, l.Serves op (before ++ coming) coming ∧ l.log.reverse = before.map fun r => (r, some (op r)) := by
  have hsettled : ∀ e ∈ l.settled, e.2 = some (op e.1) := by rwa [Ledger.settled, if_pos hidle]
  exact ⟨l.requests, ⟨rfl, hsettled⟩, Ledger.Serves.shown ⟨List.append_nil _, hsettled⟩ hidle hoffers⟩

end

/-- A recorded request that has a response has its operation as response (R20, R142). -/
theorem answered_of_record {α β : Type} {op : α → β} {e : α × Option β} (hne : e.2 ≠ none)
    (hop : ∀ p, e.2 = some p → p = op e.1) : e.2 = some (op e.1) := by
  obtain ⟨p, hp⟩ := Option.ne_none_iff_exists'.1 hne
  rw [hp, hop p hp]

/-- The requests among the moves to come at `s` are those of the move that a step makes and those still to come. -/
theorem requestsIn_step {s t : State} {e : Event} (c : Config)
    (h : s.agenda = e :: t.agenda ∨ s.agenda = [] ∧ t.agenda = [] ∧ ownMove s = some e) :
    encRequestsIn c s.agenda = encRequestsIn c [e] ++ encRequestsIn c t.agenda ∧
      decRequestsIn c s.agenda = decRequestsIn c [e] ++ decRequestsIn c t.agenda := by
  obtain h | ⟨hs, ht, hown⟩ := h
  · rw [h]
    exact ⟨List.filterMap_append (l := [e]), List.filterMap_append (l := [e])⟩
  · rw [hs, ht]
    obtain ⟨rfl, -⟩ | ⟨rfl, -⟩ | ⟨rfl, -⟩ | ⟨rfl, -⟩ := ownMove_some hown <;> exact ⟨rfl, rfl⟩

/-- What a run without a reset keeps of the pairs it will show; `encAll` and `decAll` are all its requests. -/
structure ServingRun (c : Config) (encAll : List EncRequest) (decAll : List DecRequest) (s : State) : Prop where
  inv   : Inv s
  build : s.cfg = c
  reset : Event.reset ∉ s.agenda
  enc   : (encLedger s).Serves encodeOp encAll (encRequestsIn c s.agenda)
  dec   : (decLedger s).Serves decodeOp decAll (decRequestsIn c s.agenda)

theorem ServingRun.step {c : Config} {encAll : List EncRequest} {decAll : List DecRequest} {s t : State}
    (hs : ServingRun c encAll decAll s) (h : Machine.step s = .next t) : ServingRun c encAll decAll t := by
  obtain ⟨rfl, -⟩ | ⟨e, hrun, hagenda⟩ := step_event h
  · exact hs
  · obtain ⟨hinv, hbuild, hreset, henc, hdec⟩ := hs
    obtain ⟨hencReq, hdecReq⟩ := requestsIn_step c hagenda
    rw [hencReq] at henc
    rw [hdecReq] at hdec
    have hne : e ≠ .reset ∧ Event.reset ∉ t.agenda := by
      obtain ha | ⟨-, ht, hown⟩ := hagenda
      · rw [ha] at hreset
        exact ⟨Ne.symm (List.ne_of_not_mem_cons hreset), List.not_mem_of_not_mem_cons hreset⟩
      · rw [ht]
        refine ⟨?_, List.not_mem_nil⟩
        obtain ⟨rfl, -⟩ | ⟨rfl, -⟩ | ⟨rfl, -⟩ | ⟨rfl, -⟩ := ownMove_some hown <;> nofun
    have hinv' := hinv.withAgenda t.agenda
    have hstepE := hinv'.encLedgerStep hne.1 hrun
    have hstepD := hinv'.decLedgerStep hne.1 hrun
    rw [State.setAgenda_cfg, hbuild] at hstepE hstepD
    exact ⟨hinv.of_step h, (step_frame h).1.trans hbuild, hne.2, hstepE.serves henc, hstepD.serves hdec⟩

/-- Where no offer is to come, no request is. -/
theorem requestsIn_eq_nil (c : Config) {moves : List Event} (h : ∀ w, Event.offer w ∉ moves) :
    encRequestsIn c moves = [] ∧ decRequestsIn c moves = [] := by
  constructor <;> refine List.filterMap_eq_nil_iff.2 fun e he => ?_
  all_goals
    cases e with
    | offer w => exact (h w he).elim
    | _ => rfl

/-- Settles O56: a run without a reset keeps all its requests and settles them in order (`ServingRun.step`); where it
ends, all are in the record, answered. -/
theorem endedRunsShowEveryRequest : Obligations.EndedRunsShowEveryRequest := by
  intro s t k hinv hserved hanswered hreset hends
  obtain ⟨hidleE, hoffersE, hidleD, hoffersD⟩ := hserved
  obtain ⟨hansE, hansD⟩ := hanswered
  obtain ⟨beforeE, hservesE, hshownE⟩ := Ledger.serves_of_answered (op := encodeOp) (l := encLedger s)
    (encRequestsIn s.cfg s.agenda) hidleE hoffersE
    fun e he => answered_of_record (hansE e he) (hinv.encRecord e he).2
  obtain ⟨beforeD, hservesD, hshownD⟩ := Ledger.serves_of_answered (op := decodeOp) (l := decLedger s)
    (decRequestsIn s.cfg s.agenda) hidleD hoffersD
    fun e he => answered_of_record (hansD e he) (hinv.decRecord e he).2
  have hstart : ServingRun s.cfg _ _ s := ⟨hinv, rfl, hreset, hservesE, hservesD⟩
  obtain ⟨hrun, ⟨⟨hidleE', hoffersE', hidleD', hoffersD'⟩, hnone⟩ | ⟨j, u, -, hu, hlast⟩⟩ := hends
  · obtain ⟨-, -, -, hendE, hendD⟩ := stepN_keeps (fun _ _ => ServingRun.step) k hstart hrun
    obtain ⟨hnoE, hnoD⟩ := requestsIn_eq_nil s.cfg hnone
    rw [hnoE] at hendE
    rw [hnoD] at hendD
    constructor
    · rw [show shownEnc s = _ from hshownE, ← List.map_append]
      exact hendE.shown hidleE' hoffersE'
    · rw [show shownDec s = _ from hshownD, ← List.map_append]
      exact hendD.shown hidleD' hoffersD'
  · have hmid := (stepN_keeps (fun _ _ => ServingRun.step) j hstart hu).reset
    rw [hlast] at hmid
    exact absurd List.mem_cons_self hmid

end Sys2Proof.Machine
end

section
/-! PROOFS. What a step leaves alone and what it does not depend on: the build and an accepted request (R40, R45), the
other unit (R15, R124), the fields the spec leaves unspecified (R26 to R28), and what the host has seen (R34). -/

namespace Sys2Proof.Machine

/-! ## An accepted request does not change -/

/-- No change of a unit that is not IDLE writes its request. -/
theorem effect_req {s t : State} (e : Effect s t) :
    (s.enc.phase ≠ .idle → t.enc.req = s.enc.req) ∧ (s.dec.phase ≠ .idle → t.dec.req = s.dec.req) := by
  cases e with
  | acceptEnc r rest hp => exact ⟨fun hn => absurd hp hn, fun _ => rfl⟩
  | acceptDec r rest hp => exact ⟨fun _ => rfl, fun hn => absurd hp hn⟩
  | emit => rw [encAdvance_eq]; exact ⟨fun _ => rfl, fun _ => rfl⟩
  | deliverEnc hp => rw [deliverEnc_done hp]; exact ⟨fun _ => rfl, fun _ => rfl⟩
  | deliverDec hp => rw [deliverDec_done hp]; exact ⟨fun _ => rfl, fun _ => rfl⟩
  | _ => exact ⟨fun _ => rfl, fun _ => rfl⟩

/-- Settles O49: the build by `step_frame`, the requests by `effect_req`. -/
theorem acceptedRequestsDoNotChange : Obligations.AcceptedRequestsDoNotChange := by
  intro s t h
  refine ⟨(step_frame h).1, fun hreset => ?_⟩
  obtain ⟨-, rfl⟩ | ⟨e, rest, hmove, ⟨rfl, -⟩ | heffect⟩ := step_effect h
  · exact ⟨fun _ => rfl, fun _ => rfl⟩
  · exact absurd (congrArg List.head? (nextMove_reset hmove)) hreset
  · have hreq := effect_req heffect
    exact hreq

/-! ## The units are independent -/

/-- The state `t` with ENC, its channel and its record as in `s`. -/
def State.withEncOf (t s : State) : State := { t with enc := s.enc, encOffers := s.encOffers, encLog := s.encLog }

/-- The state `t` with DEC, its channel and its record as in `s`. -/
def State.withDecOf (t s : State) : State := { t with dec := s.dec, decOffers := s.decOffers, decLog := s.decLog }

/-- The moves of a unit and of the host at it, but for offers. -/
def isMoveOf (u : UnitId) (e : Event) : Prop := e = .accept u ∨ e = .compute u ∨ e = .internal u ∨ e = .take u

/-- The moves of ENC and the offers on its channel, in build `c`. -/
def EncMove (c : Config) (e : Event) : Prop := (∃ r, e = .offer (encode c (.encode r))) ∨ isMoveOf .enc e

/-- The moves of DEC and the offers on its channel, in build `c`. -/
def DecMove (c : Config) (e : Event) : Prop := (∃ r, e = .offer (encode c (.decode r))) ∨ isMoveOf .dec e

/-- An ENCODE request that decodes does so as itself. -/
theorem decode_encode_eq {c : Config} {r : EncRequest} {i : Instr} (h : decode c (encode c (.encode r)) = .ok i) :
    i = .encode r := by
  rw [decode_encode_command] at h
  split at h
  · split at h
    · exact (Except.ok.inj h).symm
    · cases h
  · cases h

/-- A DECODE request that decodes does so as itself. -/
theorem decode_decode_eq {c : Config} {r : DecRequest} {i : Instr} (h : decode c (encode c (.decode r)) = .ok i) :
    i = .decode r := by
  rw [decode_decode_command] at h
  split at h
  · split at h
    · exact (Except.ok.inj h).symm
    · cases h
  · cases h

theorem State.withEncOf_eq {s t : State} (henc : s.enc = t.enc) (hoffers : s.encOffers = t.encOffers)
    (hlog : s.encLog = t.encLog) : t.withEncOf s = t := by
  rw [State.withEncOf, henc, hoffers, hlog]

theorem State.withDecOf_eq {s t : State} (hdec : s.dec = t.dec) (hoffers : s.decOffers = t.decOffers)
    (hlog : s.decLog = t.decLog) : t.withDecOf s = t := by
  rw [State.withDecOf, hdec, hoffers, hlog]

/-- With nothing offered there is no accept step of ENC (R17). -/
theorem acceptEnc_none {s : State} (ho : s.encOffers = []) : acceptEnc s = s := by
  unfold acceptEnc
  split
  · next hr => cases ho.symm.trans hr
  · rfl

/-- With nothing offered there is no accept step of DEC (R17). -/
theorem acceptDec_none {s : State} (ho : s.decOffers = []) : acceptDec s = s := by
  unfold acceptDec
  split
  · next hr => cases ho.symm.trans hr
  · rfl

/-- ENC's accept step reads and writes ENC's part of the state alone. -/
theorem acceptEnc_withEncOf (s t : State) :
    acceptEnc s = s.withEncOf (acceptEnc s) ∧ acceptEnc (t.withEncOf s) = t.withEncOf (acceptEnc s) := by
  by_cases hp : s.enc.phase = .idle
  · cases ho : s.encOffers with
    | nil => rw [acceptEnc_none ho, acceptEnc_none (s := t.withEncOf s) ho]; exact ⟨rfl, rfl⟩
    | cons r rest => rw [acceptEnc_idle hp ho, acceptEnc_idle (s := t.withEncOf s) hp ho]; exact ⟨rfl, rfl⟩
  · rw [acceptEnc_holds hp, acceptEnc_holds (s := t.withEncOf s) hp]
    exact ⟨rfl, rfl⟩

/-- DEC's accept step reads and writes DEC's part of the state alone. -/
theorem acceptDec_withDecOf (s t : State) :
    acceptDec s = s.withDecOf (acceptDec s) ∧ acceptDec (t.withDecOf s) = t.withDecOf (acceptDec s) := by
  by_cases hp : s.dec.phase = .idle
  · cases ho : s.decOffers with
    | nil => rw [acceptDec_none ho, acceptDec_none (s := t.withDecOf s) ho]; exact ⟨rfl, rfl⟩
    | cons r rest => rw [acceptDec_idle hp ho, acceptDec_idle (s := t.withDecOf s) hp ho]; exact ⟨rfl, rfl⟩
  · rw [acceptDec_holds hp, acceptDec_holds (s := t.withDecOf s) hp]
    exact ⟨rfl, rfl⟩

/-- ENC's deliver step reads and writes ENC's part of the state alone. -/
theorem deliverEnc_withEncOf (s t : State) :
    deliverEnc s = s.withEncOf (deliverEnc s) ∧ deliverEnc (t.withEncOf s) = t.withEncOf (deliverEnc s) := by
  by_cases hp : s.enc.phase = .done
  · rw [deliverEnc_done hp, deliverEnc_done (s := t.withEncOf s) hp]
    exact ⟨rfl, rfl⟩
  · rw [deliverEnc_waits hp, deliverEnc_waits (s := t.withEncOf s) hp]
    exact ⟨rfl, rfl⟩

/-- DEC's deliver step reads and writes DEC's part of the state alone. -/
theorem deliverDec_withDecOf (s t : State) :
    deliverDec s = s.withDecOf (deliverDec s) ∧ deliverDec (t.withDecOf s) = t.withDecOf (deliverDec s) := by
  by_cases hp : s.dec.phase = .done
  · rw [deliverDec_done hp, deliverDec_done (s := t.withDecOf s) hp]
    exact ⟨rfl, rfl⟩
  · rw [deliverDec_waits hp, deliverDec_waits (s := t.withDecOf s) hp]
    exact ⟨rfl, rfl⟩

/-- A move of ENC writes ENC's part of the state alone, and from any state that agrees on ENC it writes the same. -/
theorem runEvent_encMove {s s' : State} {e : Event} (he : EncMove s.cfg e) (h : runEvent e s = .next s') (t : State)
    (hcfg : t.cfg = s.cfg) : s' = s.withEncOf s' ∧ runEvent e (t.withEncOf s) = .next (t.withEncOf s') := by
  obtain ⟨r, rfl⟩ | rfl | rfl | rfl | rfl := he
  · simp only [runEvent, hostOffer, State.withEncOf, hcfg] at h ⊢
    cases hd : decode s.cfg (encode s.cfg (.encode r)) with
    | error _ => rw [hd] at h; cases h
    | ok i =>
      obtain rfl := decode_encode_eq hd
      rw [hd] at h
      cases h
      exact ⟨rfl, rfl⟩
  · cases h
    exact (acceptEnc_withEncOf s t).imp_right (congrArg Host.Outcome.next)
  · obtain ⟨u, hu, rfl⟩ := putUnit_next ((computeEnc_unit s).symm.trans h)
    rw [← hcfg] at hu
    exact ⟨rfl, (computeEnc_unit _).trans (congrArg (putUnit · _) hu)⟩
  · obtain ⟨u, hu, rfl⟩ := putUnit_next ((encInternal_unit s).symm.trans h)
    exact ⟨rfl, (encInternal_unit _).trans (congrArg (putUnit · _) hu)⟩
  · cases h
    exact (deliverEnc_withEncOf s t).imp_right (congrArg Host.Outcome.next)

/-- A move of DEC writes DEC's part of the state alone, and from any state that agrees on DEC it writes the same. -/
theorem runEvent_decMove {s s' : State} {e : Event} (he : DecMove s.cfg e) (h : runEvent e s = .next s') (t : State)
    (hcfg : t.cfg = s.cfg) : s' = s.withDecOf s' ∧ runEvent e (t.withDecOf s) = .next (t.withDecOf s') := by
  obtain ⟨r, rfl⟩ | rfl | rfl | rfl | rfl := he
  · simp only [runEvent, hostOffer, State.withDecOf, hcfg] at h ⊢
    cases hd : decode s.cfg (encode s.cfg (.decode r)) with
    | error _ => rw [hd] at h; cases h
    | ok i =>
      obtain rfl := decode_decode_eq hd
      rw [hd] at h
      cases h
      exact ⟨rfl, rfl⟩
  · cases h
    exact (acceptDec_withDecOf s t).imp_right (congrArg Host.Outcome.next)
  · obtain ⟨u, hu, rfl⟩ := putUnit_next ((computeDec_unit s).symm.trans h)
    rw [← hcfg] at hu
    exact ⟨rfl, (computeDec_unit _).trans (congrArg (putUnit · _) hu)⟩
  · obtain ⟨u, hu, rfl⟩ := putUnit_next ((decInternal_unit s).symm.trans h)
    exact ⟨rfl, (decInternal_unit _).trans (congrArg (putUnit · _) hu)⟩
  · cases h
    exact (deliverDec_withDecOf s t).imp_right (congrArg Host.Outcome.next)

/-- Settles O50: a move of a unit reads and writes its part of the state alone (`runEvent_encMove`,
`runEvent_decMove`). -/
theorem unitsAreIndependent : Obligations.UnitsAreIndependent := by
  constructor
  · intro s t s' e rest he hs ht hcfg henc hoffers hlog h
    rw [step_cons hs] at h
    obtain ⟨hframe, hrun⟩ := runEvent_encMove (s := s.setAgenda rest) he h (t.setAgenda rest) hcfg.symm
    rw [State.withEncOf_eq (s := s.setAgenda rest) (t := t.setAgenda rest) henc hoffers hlog] at hrun
    have hunit := congrArg State.dec hframe
    have hchannel := congrArg State.decOffers hframe
    have hrecord := congrArg State.decLog hframe
    exact ⟨hunit, hchannel, hrecord, _, (step_cons ht).trans hrun, rfl, rfl, rfl⟩
  · intro s t s' e rest he hs ht hcfg hdec hoffers hlog h
    rw [step_cons hs] at h
    obtain ⟨hframe, hrun⟩ := runEvent_decMove (s := s.setAgenda rest) he h (t.setAgenda rest) hcfg.symm
    rw [State.withDecOf_eq (s := s.setAgenda rest) (t := t.setAgenda rest) hdec hoffers hlog] at hrun
    have hunit := congrArg State.enc hframe
    have hchannel := congrArg State.encOffers hframe
    have hrecord := congrArg State.encLog hframe
    exact ⟨hunit, hchannel, hrecord, _, (step_cons ht).trans hrun, rfl, rfl, rfl⟩

/-! ## Unspecified fields never matter -/

/-- Two outcomes of a step of one unit that agree, up to `same`: the same stop, or units that are the same. -/
def unitSame {α : Type} (same : α → α → Prop) : Except (Fault ⊕ Refusal) α → Except (Fault ⊕ Refusal) α → Prop
  | .ok a, .ok b => same a b
  | .error a, .error b => a = b
  | _, _ => False

/-- Agreeing outcomes of a unit's step are agreeing outcomes of the machine's. -/
theorem outcomeSame_putUnit {α : Type} {same : α → α → Prop} {x y : Except (Fault ⊕ Refusal) α} {f g : α → State}
    (hxy : unitSame same x y) (hput : ∀ a b, same a b → SameButUnspecified (f a) (g b)) :
    outcomeSame (putUnit x f) (putUnit y g) := by
  match x, y, hxy with
  | .ok a, .ok b, hab => exact hput a b hab
  | .error (.inl a), .error (.inl b), hab => exact Sum.inl.inj hab
  | .error (.inr a), .error (.inr b), hab => exact Sum.inr.inj hab

/-- Two branchings on one condition agree where their branches do. -/
theorem unitSame_ite {α : Type} {same : α → α → Prop} {p : Prop} [Decidable p] {x x' y y' : Except (Fault ⊕ Refusal) α}
    (hpos : p → unitSame same x y) (hneg : ¬ p → unitSame same x' y') :
    unitSame same (if p then x else x') (if p then y else y') := by
  by_cases h : p
  · rw [if_pos h, if_pos h]; exact hpos h
  · rw [if_neg h, if_neg h]; exact hneg h

/-- BUSY units that are the same differ in the response alone. -/
theorem encSame_busy {u v : EncUnit} (h : encSame u v) (hp : u.phase = .busy) : v = { u with resp := v.resp } := by
  obtain ⟨hphase, hbusy, -⟩ := h
  obtain ⟨hreq, hI, hP, hO⟩ := hbusy hp
  rw [hphase, hreq, hI, hP, hO]

/-- BUSY units that are the same differ in the response and `d_acc` alone. -/
theorem decSame_busy {u v : DecUnit} (h : decSame u v) (hp : u.phase = .busy) :
    v = { u with resp := v.resp, dAcc := v.dAcc } := by
  obtain ⟨hphase, hbusy, -⟩ := h
  obtain ⟨hreq, hs, hK, hB, hG, hO⟩ := hbusy hp
  rw [hphase, hreq, hs, hK, hB, hG, hO]

/-- At BUSY the response means nothing (R26). -/
theorem encSame_of_busy {u v : EncUnit} (hp : u.phase = .busy) (h : v = { u with resp := v.resp }) : encSame u v := by
  rw [h]
  exact ⟨rfl, fun _ => ⟨rfl, rfl, rfl, rfl⟩, fun hd => (nomatch hp.symm.trans hd)⟩

/-- At BUSY the response and `d_acc` mean nothing (R26, R106). -/
theorem decSame_of_busy {u v : DecUnit} (hp : u.phase = .busy) (h : v = { u with resp := v.resp, dAcc := v.dAcc }) :
    decSame u v := by
  rw [h]
  exact ⟨rfl, fun _ => ⟨rfl, rfl, rfl, rfl, rfl, rfl⟩, fun hd => (nomatch hp.symm.trans hd)⟩

/-- At DONE nothing but the response means anything (R26). -/
theorem encSame_of_done {u v : EncUnit} (hu : u.phase = .done) (hv : v.phase = .done) (h : u.resp = v.resp) :
    encSame u v :=
  ⟨hu.trans hv.symm, fun hb => (nomatch hu.symm.trans hb), fun _ => h⟩

theorem decSame_of_done {u v : DecUnit} (hu : u.phase = .done) (hv : v.phase = .done) (h : u.resp = v.resp) :
    decSame u v :=
  ⟨hu.trans hv.symm, fun hb => (nomatch hu.symm.trans hb), fun _ => h⟩

/-- At IDLE no other field means anything (R26, R35). -/
theorem encSame_of_idle {u v : EncUnit} (hu : u.phase = .idle) (hv : v.phase = .idle) : encSame u v :=
  ⟨hu.trans hv.symm, fun hb => (nomatch hu.symm.trans hb), fun hd => (nomatch hu.symm.trans hd)⟩

theorem decSame_of_idle {u v : DecUnit} (hu : u.phase = .idle) (hv : v.phase = .idle) : decSame u v :=
  ⟨hu.trans hv.symm, fun hb => (nomatch hu.symm.trans hb), fun hd => (nomatch hu.symm.trans hd)⟩

/-- ENC's compute step reads nothing of ENC but its request, and that at BUSY. -/
theorem encComputed_same (c : Config) {u v : EncUnit} (h : encSame u v) :
    unitSame encSame (encComputed c u) (encComputed c v) := by
  by_cases hp : u.phase = .busy
  · rw [encSame_busy h hp]
    refine unitSame_ite (fun _ => unitSame_ite (fun _ => unitSame_ite (fun _ => ?_) fun _ => rfl) fun _ => rfl)
      fun hn => absurd hp hn
    exact encSame_of_done rfl rfl rfl
  · rw [encComputed, encComputed, if_neg hp, if_neg (h.1 ▸ hp)]
    exact h

/-- ENC's datapath step reads nothing of ENC but its request and datapath, and those at BUSY. -/
theorem encStepped_same {u v : EncUnit} (h : encSame u v) :
    unitSame encSame (encStepped u) (encStepped v) := by
  by_cases hp : u.phase = .busy
  · rw [encSame_busy h hp]
    refine unitSame_ite (fun _ => unitSame_ite (fun _ => ?_) fun _ => unitSame_ite (fun _ => ?_) fun _ => ?_)
      fun hn => absurd hp hn
    · dsimp only
      cases inRead u.req.len u.req.data u.eI with
      | none => rfl
      | some b =>
        dsimp only
        cases outWrite u.eOut (8 * u.eI + (7 - u.eP)) (sym (bit b u.eP)) with
        | none => rfl
        | some out =>
          dsimp only
          rw [encAdvance_eq, encAdvance_eq]
          exact encSame_of_busy hp rfl
    · exact encSame_of_done rfl rfl rfl
    · exact encSame_of_busy hp rfl
  · rw [encStepped, encStepped, if_neg hp, if_neg (h.1 ▸ hp)]
    exact h

/-- DEC's compute step reads nothing of DEC but its request, and that at BUSY. -/
theorem decComputed_same (c : Config) {u v : DecUnit} (h : decSame u v) :
    unitSame decSame (decComputed c u) (decComputed c v) := by
  by_cases hp : u.phase = .busy
  · rw [decSame_busy h hp]
    refine unitSame_ite (fun _ => unitSame_ite (fun _ => unitSame_ite (fun _ => ?_) fun _ => rfl) fun _ => rfl)
      fun hn => absurd hp hn
    exact decSame_of_done rfl rfl rfl
  · rw [decComputed, decComputed, if_neg hp, if_neg (h.1 ▸ hp)]
    exact h

/-- DEC's datapath step reads nothing of DEC but its request and datapath, and those at BUSY; it writes `d_acc` before
it reads it (R106). -/
theorem decStepped_same {u v : DecUnit} (h : decSame u v) :
    unitSame decSame (decStepped u) (decStepped v) := by
  by_cases hp : u.phase = .busy
  · rw [decSame_busy h hp]
    refine unitSame_ite (fun _ => ?_) fun hn => absurd hp hn
    dsimp only
    cases hs : u.dStep with
    | validate =>
      refine unitSame_ite (fun _ => decSame_of_busy hp rfl) fun _ => ?_
      cases inRead u.req.len u.req.data u.dK with
      | none => rfl
      | some c =>
        exact unitSame_ite (fun _ => decSame_of_busy hp rfl) fun _ => decSame_of_done rfl rfl rfl
    | checklen =>
      exact unitSame_ite (fun _ => decSame_of_busy hp rfl) fun _ => decSame_of_done rfl rfl rfl
    | pack =>
      refine unitSame_ite (fun _ => decSame_of_done rfl rfl rfl) fun _ => unitSame_ite (fun _ => ?_) fun _ => rfl
      cases outWrite u.dOut u.dG (pack (groupAt u.dBits u.dG)) with
      | none => rfl
      | some out => exact decSame_of_busy hp rfl
  · rw [decStepped, decStepped, if_neg hp, if_neg (h.1 ▸ hp)]
    exact h

theorem SameButUnspecified.withAgenda {s t : State} (h : SameButUnspecified s t) (l : List Event) :
    SameButUnspecified (s.setAgenda l) (t.setAgenda l) := by
  obtain ⟨hcfg, henc, hdec, hoE, hoD, hlE, hlD, -⟩ := h
  exact ⟨hcfg, henc, hdec, hoE, hoD, hlE, hlD, rfl⟩

theorem SameButUnspecified.withEnc {s t : State} (h : SameButUnspecified s t) {u v : EncUnit} (huv : encSame u v) :
    SameButUnspecified (s.setEnc u) (t.setEnc v) := by
  obtain ⟨hcfg, -, hrest⟩ := h
  exact ⟨hcfg, huv, hrest⟩

theorem SameButUnspecified.withDec {s t : State} (h : SameButUnspecified s t) {u v : DecUnit} (huv : decSame u v) :
    SameButUnspecified (s.setDec u) (t.setDec v) := by
  obtain ⟨hcfg, henc, -, hrest⟩ := h
  exact ⟨hcfg, henc, huv, hrest⟩

/-- ENC's accept step writes every field that means something at BUSY (R17, R82). -/
theorem SameButUnspecified.acceptEnc {s t : State} (h : SameButUnspecified s t) :
    SameButUnspecified (acceptEnc s) (acceptEnc t) := by
  have hphase : s.enc.phase = t.enc.phase := h.2.1.1
  obtain ⟨hcfg, henc, hdec, hoE, hoD, hlE, hlD, hagenda⟩ := id h
  by_cases hp : s.enc.phase = .idle
  · cases ho : s.encOffers with
    | nil => rw [acceptEnc_none ho, acceptEnc_none (hoE.symm.trans ho)]; exact h
    | cons r rest =>
      rw [acceptEnc_idle hp ho, acceptEnc_idle (hphase.symm.trans hp) (hoE.symm.trans ho)]
      exact ⟨hcfg, encSame_of_busy rfl rfl, hdec, rfl, hoD, congrArg (_ :: ·) hlE, hlD, hagenda⟩
  · rw [acceptEnc_holds hp, acceptEnc_holds (hphase ▸ hp)]
    exact h

/-- DEC's accept step writes every field that means something at BUSY (R17, R103). -/
theorem SameButUnspecified.acceptDec {s t : State} (h : SameButUnspecified s t) :
    SameButUnspecified (acceptDec s) (acceptDec t) := by
  have hphase : s.dec.phase = t.dec.phase := h.2.2.1.1
  obtain ⟨hcfg, henc, hdec, hoE, hoD, hlE, hlD, hagenda⟩ := id h
  by_cases hp : s.dec.phase = .idle
  · cases ho : s.decOffers with
    | nil => rw [acceptDec_none ho, acceptDec_none (hoD.symm.trans ho)]; exact h
    | cons r rest =>
      rw [acceptDec_idle hp ho, acceptDec_idle (hphase.symm.trans hp) (hoD.symm.trans ho)]
      exact ⟨hcfg, henc, decSame_of_busy rfl rfl, hoE, rfl, hlE, congrArg (_ :: ·) hlD, hagenda⟩
  · rw [acceptDec_holds hp, acceptDec_holds (hphase ▸ hp)]
    exact h

/-- ENC's deliver step reads the response at DONE only (R22). -/
theorem SameButUnspecified.deliverEnc {s t : State} (h : SameButUnspecified s t) :
    SameButUnspecified (deliverEnc s) (deliverEnc t) := by
  obtain ⟨hcfg, ⟨hphase, -, hresp⟩, hdec, hoE, hoD, hlE, hlD, hagenda⟩ := id h
  by_cases hp : s.enc.phase = .done
  · rw [deliverEnc_done hp, deliverEnc_done (hphase.symm.trans hp), hresp hp, hlE]
    exact ⟨hcfg, encSame_of_idle rfl rfl, hdec, hoE, hoD, rfl, hlD, hagenda⟩
  · rw [deliverEnc_waits hp, deliverEnc_waits (hphase ▸ hp)]
    exact h

/-- DEC's deliver step reads the response at DONE only (R22). -/
theorem SameButUnspecified.deliverDec {s t : State} (h : SameButUnspecified s t) :
    SameButUnspecified (deliverDec s) (deliverDec t) := by
  obtain ⟨hcfg, henc, ⟨hphase, -, hresp⟩, hoE, hoD, hlE, hlD, hagenda⟩ := id h
  by_cases hp : s.dec.phase = .done
  · rw [deliverDec_done hp, deliverDec_done (hphase.symm.trans hp), hresp hp, hlD]
    exact ⟨hcfg, henc, decSame_of_idle rfl rfl, hoE, hoD, hlE, rfl, hagenda⟩
  · rw [deliverDec_waits hp, deliverDec_waits (hphase ▸ hp)]
    exact h

/-- An offer reads the build and adds to its channel (R18, R55). -/
theorem SameButUnspecified.hostOffer {s t : State} (h : SameButUnspecified s t) (w : CodeWord) :
    outcomeSame (hostOffer w s) (hostOffer w t) := by
  obtain ⟨hcfg, henc, hdec, hoE, hoD, hlE, hlD, hagenda⟩ := h
  unfold Machine.hostOffer
  rw [← hcfg]
  split
  · exact ⟨hcfg, henc, hdec, congrArg (· ++ _) hoE, hoD, hlE, hlD, hagenda⟩
  · exact ⟨hcfg, henc, hdec, hoE, congrArg (· ++ _) hoD, hlE, hlD, hagenda⟩
  · rfl
  · rfl

/-- Every move from two states that are the same has outcomes that are the same. -/
theorem SameButUnspecified.runEvent {s t : State} (h : SameButUnspecified s t) (e : Event) :
    outcomeSame (runEvent e s) (runEvent e t) := by
  have henc : encSame s.enc t.enc := h.2.1
  have hdec : decSame s.dec t.dec := h.2.2.1
  cases e with
  | offer w => exact h.hostOffer w
  | accept u =>
    cases u
    · exact h.acceptEnc
    · exact h.acceptDec
  | compute u =>
    cases u
    · show outcomeSame (computeEnc s) (computeEnc t)
      rw [computeEnc_unit, computeEnc_unit, ← h.1]
      exact outcomeSame_putUnit (encComputed_same s.cfg henc) fun _ _ => h.withEnc
    · show outcomeSame (computeDec s) (computeDec t)
      rw [computeDec_unit, computeDec_unit, ← h.1]
      exact outcomeSame_putUnit (decComputed_same s.cfg hdec) fun _ _ => h.withDec
  | internal u =>
    cases u
    · show outcomeSame (encInternal s) (encInternal t)
      rw [encInternal_unit, encInternal_unit]
      exact outcomeSame_putUnit (encStepped_same henc) fun _ _ => h.withEnc
    · show outcomeSame (decInternal s) (decInternal t)
      rw [decInternal_unit, decInternal_unit]
      exact outcomeSame_putUnit (decStepped_same hdec) fun _ _ => h.withDec
  | take u =>
    cases u
    · exact h.deliverEnc
    · exact h.deliverDec
  | reset => exact (h.withEnc (encSame_of_idle rfl rfl)).withDec (decSame_of_idle rfl rfl)

/-- The next move depends on phases, offers and agenda alone. -/
theorem SameButUnspecified.nextMove {s t : State} (h : SameButUnspecified s t) : nextMove s = nextMove t := by
  obtain ⟨-, ⟨hphaseE, -⟩, ⟨hphaseD, -⟩, hoE, hoD, -, -, hagenda⟩ := h
  simp only [Machine.nextMove, ownMove, hphaseE, hphaseD, hoE, hoD, hagenda]

/-- What the host sees depends on phases and records alone. -/
theorem SameButUnspecified.views {s t : State} (h : SameButUnspecified s t) :
    viewEnc s = viewEnc t ∧ viewDec s = viewDec t := by
  obtain ⟨-, ⟨hphaseE, -⟩, ⟨hphaseD, -⟩, -, -, hlE, hlD, -⟩ := h
  simp only [viewEnc, viewDec, hphaseE, hphaseD, hlE, hlD, and_self]

/-- Settles O51: the next move is the same (`SameButUnspecified.nextMove`), and so is its outcome
(`SameButUnspecified.runEvent`). -/
theorem unspecifiedFieldsNeverMatter : Obligations.UnspecifiedFieldsNeverMatter := by
  intro s t h
  refine ⟨?_, h.views⟩
  unfold step
  rw [← h.nextMove]
  split
  · exact h
  · exact (h.withAgenda _).runEvent _

/-! ## What the host has seen -/

theorem viewEnc_deliverEnc {s : State} {r : EncRequest} {older : List (EncRequest × Option EncResponse)}
    (hp : s.enc.phase = .done) (hlog : s.encLog = (r, none) :: older) :
    viewEnc (deliverEnc s) = ⟨true, false, (viewEnc s).delivered ++ [s.enc.resp]⟩ ∧
      viewDec (deliverEnc s) = viewDec s := by
  rw [deliverEnc_done hp, viewEnc, viewEnc, hlog]
  simp [viewDec]

theorem viewDec_deliverDec {s : State} {r : DecRequest} {older : List (DecRequest × Option DecResponse)}
    (hp : s.dec.phase = .done) (hlog : s.decLog = (r, none) :: older) :
    viewDec (deliverDec s) = ⟨true, false, (viewDec s).delivered ++ [s.dec.resp]⟩ ∧
      viewEnc (deliverDec s) = viewEnc s := by
  rw [deliverDec_done hp, viewDec, viewDec, hlog]
  simp [viewEnc]

/-- A move that is not first on the agenda but the block's own is no deliver step. -/
theorem ne_take_of_head {s t : State} {e : Event} {u : UnitId}
    (h : s.agenda = e :: t.agenda ∨ s.agenda = [] ∧ t.agenda = [] ∧ ownMove s = some e)
    (hhead : s.agenda.head? ≠ some (.take u)) : e ≠ .take u := by
  obtain ha | ⟨-, -, hown⟩ := h
  · rintro rfl
    exact hhead (congrArg List.head? ha)
  · obtain ⟨rfl, -⟩ | ⟨rfl, -⟩ | ⟨rfl, -⟩ | ⟨rfl, -⟩ := ownMove_some hown <;> nofun

/-- Settles O58: the deliver steps show the whole response, and `runEvent_deliveredEnc`, `runEvent_deliveredDec` say no
other move shows any. -/
theorem responsesShowAtDelivery : Obligations.ResponsesShowAtDelivery := by
  refine ⟨fun s rest r older ha hp hlog => ?_, fun s rest r older ha hp hlog => ?_, fun s t h => ?_⟩
  · exact ⟨_, step_cons ha, viewEnc_deliverEnc (s := s.setAgenda rest) hp hlog⟩
  · exact ⟨_, step_cons ha, viewDec_deliverDec (s := s.setAgenda rest) hp hlog⟩
  · obtain ⟨rfl, -⟩ | ⟨e, hrun, hagenda⟩ := step_event h
    · exact ⟨fun _ => rfl, fun _ => rfl⟩
    · exact ⟨fun hne => runEvent_deliveredEnc (s := s.setAgenda t.agenda) hrun (hne.imp_left (ne_take_of_head hagenda)),
        fun hne => runEvent_deliveredDec (s := s.setAgenda t.agenda) hrun (hne.imp_left (ne_take_of_head hagenda))⟩

end Sys2Proof.Machine
end

section
/-! PROOFS. Words and instructions: decode and encode (R55 to R62, R71), and what each instruction does, leaves
alone and waits for (R87, R88, R104). -/

namespace Sys2Proof.Machine

/-! ## Decode and encode -/

/-- Settles O1, by running the decoder on the seven words. -/
theorem writtenOutWordsDecode : Obligations.WrittenOutWordsDecode :=
  ⟨rfl, rfl, rfl, rfl, rfl, rfl, rfl⟩

/-- Settles O2: requests by their framing (`decode_of_admitted_enc`, `decode_of_admitted_dec`), symbols by exact
equality (`symInstr_eq`). -/
theorem decodeAfterEncode : Obligations.DecodeAfterEncode := by
  intro c i hwf
  cases i with
  | encode r => exact decode_of_admitted_enc hwf
  | decode r => exact decode_of_admitted_dec hwf
  | symHigh => exact decode_symbolWord c high
  | symLow => exact decode_symbolWord c low
  | symInvalid ch =>
    obtain ⟨hhigh, hlow⟩ : ch ≠ high ∧ ch ≠ low := by simpa [wellFormed] using hwf
    rw [encode, decode_symbolWord, symInstr_eq, if_neg hhigh, if_neg hlow]

/-- The row a character selects is well formed, and its word is that character (R64). -/
theorem symInstr_wellFormed_encode (c : Config) (ch : Chr) :
    wellFormed c (symInstr ch) = true ∧ encode c (symInstr ch) = symbolWord ch := by
  rw [symInstr_eq]
  by_cases hhigh : ch = high
  · rw [if_pos hhigh, hhigh]
    exact ⟨rfl, rfl⟩
  · by_cases hlow : ch = low
    · rw [if_neg hhigh, if_pos hlow, hlow]
      exact ⟨rfl, rfl⟩
    · rw [if_neg hhigh, if_neg hlow]
      exact ⟨by simp [wellFormed, hhigh, hlow], rfl⟩

/-- Settles O3: a command that decodes is the message of an admitted request (`decode_ok_encode`, `decode_ok_decode`), a
symbol that decodes is a character (`decode_ok_symbol`). -/
theorem encodeAfterDecode : Obligations.EncodeAfterDecode := by
  intro c w i h
  cases w with
  | command sel msg =>
    obtain ⟨r, rfl⟩ | ⟨r, rfl⟩ := decode_ok_command h
    · obtain ⟨hw, hadm⟩ := decode_ok_encode h
      exact ⟨hadm, hw.symm⟩
    · obtain ⟨hw, hadm⟩ := decode_ok_decode h
      exact ⟨hadm, hw.symm⟩
  | symbol f =>
    obtain ⟨ch, hw, rfl⟩ := decode_ok_symbol h
    rw [hw]
    exact symInstr_wellFormed_encode c ch

/-! ## Every instruction -/

/-- Everything SYM_HIGH can do. -/
theorem execSymHigh_cases (s : State) :
    (decSees high s = true ∧ execSymHigh s = .next (pushBit true s)) ∨
      (¬ decSees high s = true ∧ execSymHigh s = .next s) :=
  (em _).imp (fun h => ⟨h, execSymHigh_sees h⟩) fun h => ⟨h, execSymHigh_waits h⟩

/-- Everything SYM_LOW can do. -/
theorem execSymLow_cases (s : State) :
    (decSees low s = true ∧ execSymLow s = .next (pushBit false s)) ∨
      (¬ decSees low s = true ∧ execSymLow s = .next s) :=
  (em _).imp (fun h => ⟨h, execSymLow_sees h⟩) fun h => ⟨h, execSymLow_waits h⟩

/-- Everything SYM_INVALID can do. -/
theorem execSymInvalid_cases (c : Chr) (s : State) :
    ((decSees c s = true ∧ ¬ alphabetic c) ∧
        execSymInvalid c s = .next (raiseError (.invalidCharacter s.dec.dK c) s)) ∨
      (¬ (decSees c s = true ∧ ¬ alphabetic c) ∧ execSymInvalid c s = .next s) :=
  (em _).imp (fun h => ⟨h, execSymInvalid_sees h.1 h.2⟩) fun h => ⟨h, execSymInvalid_waits h⟩

/-- Settles O30, by the cases of each instruction: it responds, pushes a bit, raises an error or waits. -/
theorem instructionFrames : Obligations.InstructionFrames := by
  intro i s t h
  cases i with
  | encode r =>
    obtain ⟨-, -, hx⟩ | ⟨-, hx⟩ := execEncode_cases r s <;> cases hx.symm.trans h <;> rfl
  | decode r =>
    obtain ⟨-, -, hx⟩ | ⟨-, hx⟩ := execDecode_cases r s <;> cases hx.symm.trans h <;> rfl
  | symHigh => obtain ⟨-, hx⟩ | ⟨-, hx⟩ := execSymHigh_cases s <;> cases hx.symm.trans h <;> rfl
  | symLow => obtain ⟨-, hx⟩ | ⟨-, hx⟩ := execSymLow_cases s <;> cases hx.symm.trans h <;> rfl
  | symInvalid c => obtain ⟨-, hx⟩ | ⟨-, hx⟩ := execSymInvalid_cases c s <;> cases hx.symm.trans h <;> rfl

/-- Every instruction answers a next state. -/
theorem exec_answers (i : Instr) (s : State) : ∃ t, exec i s = .next t := by
  cases i with
  | encode r => obtain ⟨-, -, hx⟩ | ⟨-, hx⟩ := execEncode_cases r s <;> exact ⟨_, hx⟩
  | decode r => obtain ⟨-, -, hx⟩ | ⟨-, hx⟩ := execDecode_cases r s <;> exact ⟨_, hx⟩
  | symHigh => obtain ⟨-, hx⟩ | ⟨-, hx⟩ := execSymHigh_cases s <;> exact ⟨_, hx⟩
  | symLow => obtain ⟨-, hx⟩ | ⟨-, hx⟩ := execSymLow_cases s <;> exact ⟨_, hx⟩
  | symInvalid c => obtain ⟨-, hx⟩ | ⟨-, hx⟩ := execSymInvalid_cases c s <;> exact ⟨_, hx⟩

/-- Settles O31: every instruction answers (`exec_answers`), and away from its step it waits. -/
theorem instructionsNeverStop : Obligations.InstructionsNeverStop := by
  refine ⟨exec_answers, fun s r h => execEncode_waits h, fun s r h => execDecode_waits h, fun s i ch hi h => ?_⟩
  rw [← decSees_iff] at h
  obtain ⟨rfl, rfl⟩ | ⟨rfl, rfl⟩ | rfl := hi
  · exact execSymHigh_waits h
  · exact execSymLow_waits h
  · exact execSymInvalid_waits fun hsee => h hsee.1

/-- The bit of character `k` is bit `k` (R87). -/
theorem bitsOf_getElem? {cs : List Chr} {k : Nat} {c : Chr} (h : cs[k]? = some c) :
    (bitsOf cs)[k]? = some (c == high) := by
  rw [bitsOf, List.getElem?_map, h]
  rfl

/-- Settles O28: the symbols where DEC sees them (`execSymHigh_sees`, `execSymLow_sees`), and the scan of alphabet
characters (`scan_ok`). -/
theorem alphabetSymbolsComplete : Obligations.AlphabetSymbolsComplete := by
  refine ⟨fun s hp hs hlt => ⟨fun hc => ?_, fun hc => ?_⟩, fun cs halpha => ?_⟩
  · exact execSymHigh_sees ((decSees_iff high s).2 ⟨hp, hs, hlt, hc⟩)
  · exact execSymLow_sees ((decSees_iff low s).2 ⟨hp, hs, hlt, hc⟩)
  · refine ⟨bitsOf cs, scan_ok cs 0 halpha, bitsOf_length cs, fun k c hk => ⟨?_, ?_⟩⟩
    · rintro rfl
      exact bitsOf_getElem? hk
    · rintro rfl
      exact bitsOf_getElem? hk

/-- Settles O29, by the offender's step where DEC sees it (`execSymInvalid_sees`). -/
theorem invalidSymbolRaises : Obligations.InvalidSymbolRaises := by
  intro s ch hp hs hlt hc hhigh hlow
  exact ⟨execSymInvalid_sees ((decSees_iff ch s).2 ⟨hp, hs, hlt, hc⟩) (not_or.2 ⟨hhigh, hlow⟩), rfl⟩

/-- What decodes is run. -/
theorem runWord_ok {w : CodeWord} {s : State} {i : Instr} (h : decode s.cfg w = .ok i) : runWord w s = exec i s := by
  rw [runWord, h]

/-- Settles O32: a compute step runs the request's word, a VALIDATE step the character's. -/
theorem stepRunsDecodedInstruction : Obligations.StepRunsDecodedInstruction := by
  intro s rest i
  refine ⟨fun ha hp hd => ?_, fun ha hp hd => ?_, fun ch ha hp hs hlt hc hd => ?_⟩
  · rw [step_cons ha, runEvent, computeEnc, if_pos (by exact hp)]
    exact runWord_ok (s := s.setAgenda rest) hd
  · rw [step_cons ha, runEvent, computeDec, if_pos (by exact hp)]
    exact runWord_ok (s := s.setAgenda rest) hd
  · obtain rfl : symInstr ch = i := Except.ok.inj ((decode_symbolWord s.cfg ch).symm.trans hd)
    rw [step_cons ha, runEvent, decInternal_validate (s := s.setAgenda rest) hp hs]
    exact decValidate_sees ((decSees_iff ch _).2 ⟨hp, hs, hlt, hc⟩)

end Sys2Proof.Machine
end

section
/-! PROOFS. Transactions: offer and hold, accept, compute, deliver and reset, one step each (R17 to R22, R127), and the
responses as the host reads them (R58 to R61). -/

namespace Sys2Proof.Machine

/-! ## One step each -/

/-- A length within the limit is one that its field holds (R8, R134). -/
theorem le_limit_iff (w n : Nat) : n ≤ 2 ^ w - 1 ↔ n < 2 ^ w := Nat.le_sub_one_iff_lt (Nat.two_pow_pos w)

/-- Settles O8: the offer's word decodes by its length and its framing (`decode_encode_command`,
`decode_decode_command`). -/
theorem offersAreAdmittedOrRefused : Obligations.OffersAreAdmittedOrRefused := by
  constructor
  · intro s r rest ha
    have hlimit := le_limit_iff (s.cfg.posW - 3) r.len
    rw [step_cons ha]
    simp only [runEvent, hostOffer, State.setAgenda_cfg, decode_encode_command]
    by_cases hlen : r.len < 2 ^ s.cfg.encLenW
    · rw [if_pos hlen, if_neg (not_not_intro (hlimit.2 hlen))]
      by_cases hframed : r.data.length = r.len
      · rw [if_pos hframed, if_neg (not_not_intro hframed)]
        rfl
      · rw [if_neg hframed, if_pos hframed]
    · rw [if_neg hlen, if_pos (mt hlimit.1 hlen)]
  · intro s r rest ha
    have hlimit := le_limit_iff s.cfg.posW r.len
    rw [step_cons ha]
    simp only [runEvent, hostOffer, State.setAgenda_cfg, decode_decode_command]
    by_cases hlen : r.len < 2 ^ s.cfg.posW
    · rw [if_pos hlen, if_neg (not_not_intro (hlimit.2 hlen))]
      by_cases hframed : r.data.length = r.len
      · rw [if_pos hframed, if_neg (not_not_intro hframed)]
        rfl
      · rw [if_neg hframed, if_pos hframed]
    · rw [if_neg hlen, if_pos (mt hlimit.1 hlen)]

/-- The host offers an admitted DECODE request (R18, R19). -/
theorem step_offerDec {s : State} {r : DecRequest} {rest : List Event} (hr : r.admitted s.cfg = true)
    (ha : s.agenda = .offer (encode s.cfg (.decode r)) :: rest) :
    step s = .next (offerDec r (s.setAgenda rest)) := by
  rw [step_cons ha]
  simp only [runEvent, hostOffer, State.setAgenda_cfg, decode_of_admitted_dec hr]

/-- An IDLE DEC accepts the oldest offer (R17). -/
theorem step_acceptDec {s : State} {r : DecRequest} {offers : List DecRequest} {rest : List Event}
    (ha : s.agenda = .accept .dec :: rest) (hp : s.dec.phase = .idle) (ho : s.decOffers = r :: offers) :
    step s = .next (takeDecRequest r ((s.setAgenda rest).setDecOffers offers)) := by
  rw [step_cons ha, runEvent, acceptDec_idle (s := s.setAgenda rest) hp ho]

/-- A BUSY DEC computes `F_DEC` of its admitted request (R20). -/
theorem step_computeDec {s : State} {rest : List Event} (ha : s.agenda = .compute .dec :: rest)
    (hp : s.dec.phase = .busy) (hr : s.dec.req.admitted s.cfg = true) :
    step s = .next (respondDec (decodeOp s.dec.req) (s.setAgenda rest)) := by
  rw [step_cons ha]
  exact computeDec_eq (s := s.setAgenda rest) hp hr

/-- A DONE ENC delivers (R22). -/
theorem step_deliverEnc {s : State} {rest : List Event} (ha : s.agenda = .take .enc :: rest) :
    step s = .next (deliverEnc (s.setAgenda rest)) := step_cons ha

/-- A DONE DEC delivers (R22, R115). -/
theorem step_deliverDec {s : State} {rest : List Event} (ha : s.agenda = .take .dec :: rest) :
    step s = .next (deliverDec (s.setAgenda rest)) := step_cons ha

/-- Settles O33, by the accept step of each unit (`step_acceptEnc`, `step_acceptDec`). -/
theorem acceptStep : Obligations.AcceptStep :=
  ⟨fun _ _ _ _ ha hp ho => step_acceptEnc ha hp ho, fun _ _ _ _ ha hp ho => step_acceptDec ha hp ho⟩

/-- Settles O34: an accept step waits at a unit that is not IDLE. -/
theorem offersAreHeld : Obligations.OffersAreHeld := by
  intro s rest
  refine ⟨fun ha hp => ?_, fun ha hp => ?_⟩
  · rw [step_cons ha, runEvent, acceptEnc_holds (s := s.setAgenda rest) hp]
    rfl
  · rw [step_cons ha, runEvent, acceptDec_holds (s := s.setAgenda rest) hp]
    rfl

/-- Settles O35, by the compute step of each unit (`step_computeEnc`, `step_computeDec`). -/
theorem busyUnitsCompute : Obligations.BusyUnitsCompute :=
  ⟨fun _ _ ha hp hadm => step_computeEnc ha hp hadm, fun _ _ ha hp hadm => step_computeDec ha hp hadm⟩

/-- Settles O36: a deliver step records the response with the pending request, or waits. -/
theorem deliverStep : Obligations.DeliverStep := by
  refine ⟨fun s rest ha => ⟨fun hp => ?_, fun r older hp hlog => ?_⟩,
    fun s rest ha => ⟨fun hp => ?_, fun r older hp hlog => ?_⟩⟩
  · rw [step_deliverEnc ha, deliverEnc_waits (s := s.setAgenda rest) hp]
    rfl
  · rw [step_deliverEnc ha, deliverEnc_done (s := s.setAgenda rest) hp, State.setAgenda_encLog, hlog]
    rfl
  · rw [step_deliverDec ha, deliverDec_waits (s := s.setAgenda rest) hp]
    rfl
  · rw [step_deliverDec ha, deliverDec_done (s := s.setAgenda rest) hp, State.setAgenda_decLog, hlog]
    rfl

/-- Settles O37, by what `resetStep` leaves in each field. -/
theorem resetStep_spec : Obligations.ResetStep :=
  fun _ _ ha => ⟨_, step_cons ha, rfl, rfl, rfl, rfl, rfl, rfl, rfl, rfl⟩

/-- Settles O38: a view is made of the phase and the responses delivered. -/
theorem whatTheHostSees : Obligations.WhatTheHostSees := by
  refine ⟨fun s => ⟨beq_iff_eq, beq_iff_eq, rfl, beq_iff_eq, beq_iff_eq, rfl⟩, fun s t => ⟨?_, ?_⟩⟩
  · intro hphase hdelivered
    change delivered s.encLog = delivered t.encLog at hdelivered
    rw [viewEnc, viewEnc, hphase, hdelivered]
  · intro hphase hdelivered
    change delivered s.decLog = delivered t.decLog at hdelivered
    rw [viewDec, viewDec, hphase, hdelivered]

/-- Settles O57: the reset is the last move, and it leaves both records alone. -/
theorem resetEndsRun : Obligations.ResetEndsRun := by
  intro s u j hrun ha
  have hlast : stepN (j + 1) s = .next (Machine.resetStep (u.setAgenda [])) :=
    (stepN_succ_last hrun).trans (step_cons ha)
  exact ⟨_, ⟨hlast, .inr ⟨j, u, rfl, hrun, ha⟩⟩, rfl, rfl, rfl, rfl, rfl⟩

/-! ## Several steps -/

/-- Settles O39: the deliver step leaves DEC IDLE, and the accept step initialises all that the compute step reads. -/
theorem errorsLeaveNothingBehind : Obligations.ErrorsLeaveNothingBehind := by
  intro s rest r more hp _ ho hadm ha
  have hdeliver := (stepN_one s).trans (step_deliverDec ha)
  rw [deliverDec_done (by exact hp)] at hdeliver
  have haccept := (stepN_succ_last hdeliver).trans (step_acceptDec rfl rfl ho)
  have hcompute := (stepN_succ_last haccept).trans (step_computeDec rfl rfl hadm)
  exact ⟨⟨_, hdeliver, rfl⟩, _, hcompute, rfl, rfl, rfl⟩

/-- Settles O41: the offer stands alone on its channel, so the accept step takes it. -/
theorem resetIsReady : Obligations.ResetIsReady := by
  refine fun c => ⟨rfl, rfl, rfl, rfl, rfl, rfl, fun r hadm => ?_, fun r hadm => ?_⟩
  · have hoffer := (stepN_one _).trans (step_offerEnc
      (s := (State.resetFor c).setAgenda [.offer (encode c (.encode r)), .accept .enc]) hadm rfl)
    exact ⟨_, (stepN_succ_last hoffer).trans (step_acceptEnc rfl rfl (r := r) (offers := []) rfl), rfl, rfl⟩
  · have hoffer := (stepN_one _).trans (step_offerDec
      (s := (State.resetFor c).setAgenda [.offer (encode c (.decode r)), .accept .dec]) hadm rfl)
    exact ⟨_, (stepN_succ_last hoffer).trans (step_acceptDec rfl rfl (r := r) (offers := []) rfl), rfl, rfl⟩

/-! ## The responses as the host reads them -/

/-- A framed response message is read back as its length and elements. -/
theorem decodeRequest_of_framed {w : Nat} {lenW n : Nat} {xs : List (BitVec w)} (hfit : n < 2 ^ lenW)
    (hlen : xs.length = n) : decodeRequest lenW w ⟨[⟨lenW, n⟩], encodeElems xs⟩ = .ok (n, xs) := by
  rw [decodeRequest_record, if_pos hfit, if_pos hlen]

/-- A field written with the width of its table and a value that fits is accepted. -/
theorem fieldFits_of_lt {w v : Nat} (h : v < 2 ^ w) : fieldFits w ⟨w, v⟩ = true := by
  simp [fieldFits, h]

/-- The host reads an ENCODE response back from its record (R58). -/
theorem hostReadsEnc_record {c : Config} {p : EncResponse} (hfit : p.len < 2 ^ c.posW) (hlen : p.data.length = p.len) :
    hostReadsEnc c (encResponseRecord c p) = .next p := by
  rw [hostReadsEnc, encResponseRecord, decodeRequest_of_framed hfit hlen]

/-- The host reads an OK response back from its record (R60, R61). -/
theorem hostReadsDec_ok {c : Config} {n : Nat} {bytes : List Byte} (hfit : n < 2 ^ c.posW) (hlen : bytes.length = n) :
    hostReadsDec c (decResponseRecord c (.ok n bytes)) = .next (.ok n bytes) := by
  show hostReadsOk c [⟨c.posW, n⟩] (encodeElems bytes) = _
  rw [hostReadsOk, decodeRequest_of_framed hfit hlen]

/-- The host reads an INVALID_CHARACTER response back from its record (R60, R61). -/
theorem hostReadsDec_badChar {c : Config} {pos : Nat} (ch : Chr) (hfit : pos < 2 ^ c.posW) :
    hostReadsDec c (decResponseRecord c (.invalidCharacter pos ch)) = .next (.invalidCharacter pos ch) := by
  show hostReadsBadChar c [⟨c.posW, pos⟩, ⟨21, ch.toNat⟩] [] = _
  simp only [hostReadsBadChar, fieldFits_of_lt hfit, fieldFits_of_lt ch.isLt, Bool.and_self, if_true,
    BitVec.ofNat_toNat, BitVec.setWidth_eq]

/-- The host reads an INVALID_LENGTH response back from its record (R60, R61). -/
theorem hostReadsDec_badLength {c : Config} {n : Nat} (hfit : n < 2 ^ c.posW) :
    hostReadsDec c (decResponseRecord c (.invalidLength n)) = .next (.invalidLength n) := by
  show hostReadsBadLength c [⟨c.posW, n⟩] [] = _
  simp only [hostReadsBadLength, fieldFits_of_lt hfit, if_true]

/-- Settles O40: every value of a response is at most the length of its request, so it fits its field. -/
theorem responsesReadBack : Obligations.ResponsesReadBack := by
  refine ⟨fun c r hc hadm => ?_, fun c r hc hadm => ?_, fun c fields elems => rfl⟩
  · have hmax := admitted_response_fits hc hadm
    have hpow : 0 < 2 ^ c.posW := Nat.two_pow_pos _
    obtain ⟨hlen, -⟩ := (r.admitted_iff c).1 hadm
    refine hostReadsEnc_record (show 8 * r.len < 2 ^ c.posW by omega) ?_
    rw [encodeOp_data_length, hlen]
    rfl
  · obtain ⟨hlen, hfit⟩ := (r.admitted_iff c).1 hadm
    obtain hall | ⟨i, ch, hi, hch, hbefore⟩ := first_offender r.data
    · by_cases hm : r.len % 8 = 0
      · rw [decodeOp_ok hall hm]
        exact hostReadsDec_ok (by omega) (packGroups_length _ _)
      · rw [decodeOp_badLength hall hm]
        exact hostReadsDec_badLength hfit
    · obtain ⟨hpos, -⟩ := List.getElem?_eq_some_iff.1 hi
      rw [decodeOp_badChar hi hch hbefore]
      exact hostReadsDec_badChar ch (by omega)

end Sys2Proof.Machine
end

section
/-! PROOFS. Progress: DEC's datapath ends (R107), an execution is a run, a fair execution ends what it serves (R141,
R142), and the block goes on by itself (R23, R132). -/

namespace Sys2Proof.Machine

/-! ## DEC's datapath ends -/

theorem stepN_succ_of_step {s u : State} (h : step s = .next u) (k : Nat) : stepN (k + 1) s = stepN k u := by
  rw [stepN, h]

/-- From a point on track with at most `b` datapath steps left besides the one that completes, DEC is BUSY until it
responds with `F_DEC` of its request (R107). -/
theorem stepN_decInternal (b : Nat) {s : State} {rest : List Event} (hp : s.dec.phase = .busy)
    (hlen : s.dec.req.data.length = s.dec.req.len) (ht : decOnTrack s.dec) (hleft : decLeft s.dec ≤ b)
    (ha : s.agenda = List.replicate (b + 1) (.internal .dec) ++ rest) :
    ∃ n, n ≤ b ∧ (∀ k, k ≤ n → ∃ t, stepN k s = .next t ∧ t.dec.phase = .busy) ∧
      ∃ t, stepN (n + 1) s = .next t ∧ t.dec.phase = .done ∧ t.dec.resp = decodeOp s.dec.req ∧
        t = { s with dec := t.dec, agenda := t.agenda } := by
  induction b using Nat.strong_induction_on generalizing s with
  | h b ih =>
    obtain hdone | ⟨u, hgo, hu, hr, ht', hless⟩ :=
      decInternal_track (s := s.setAgenda (List.replicate b (.internal .dec) ++ rest)) hp hlen ht
    · refine ⟨0, Nat.zero_le b, fun k hk => ⟨s, ?_, hp⟩, _, (stepN_one s).trans ((step_cons ha).trans hdone), rfl, rfl,
        rfl⟩
      rw [Nat.le_zero.1 hk, stepN]
    · have hstep := (step_cons ha).trans hgo
      have hless' : decLeft u < b := Nat.lt_of_lt_of_le hless hleft
      obtain ⟨b, rfl⟩ := Nat.exists_eq_add_one.2 (Nat.zero_lt_of_lt hless')
      obtain ⟨n, hn, hbusy, t, hrun, hdone, hresp, hframe⟩ :=
        ih b (Nat.lt_succ_self b)
          (s := (s.setAgenda (List.replicate (b + 1) (.internal .dec) ++ rest)).setDec u) hu
          (by rw [State.setDec_dec, hr]; exact hlen) ht' (Nat.le_of_lt_succ hless') rfl
      refine ⟨n + 1, Nat.succ_le_succ hn, fun k hk => ?_, t, ?_, hdone, ?_, hframe⟩
      · cases k with
        | zero => exact ⟨s, rfl, hp⟩
        | succ k =>
          rw [stepN_succ_of_step hstep]
          exact hbusy k (Nat.le_of_succ_le_succ hk)
      · rw [stepN_succ_of_step hstep, hrun]
      · rw [hresp, State.setDec_dec, hr]
        rfl

/-- Settles O27: at the initialisation DEC's datapath is on track with `m + 1 + 1 + m/8` steps left
(`stepN_decInternal`). -/
theorem decDatapathGivesDecode : Obligations.DecDatapathGivesDecode := by
  rintro s r rest hadm hp rfl hs hK hB hG hO ha
  obtain ⟨hlen, -⟩ := (DecRequest.admitted_iff _ _).1 hadm
  have hleft : decLeft s.dec ≤ s.dec.req.len + 1 + 1 + s.dec.req.len / 8 := by
    rw [decLeft, hs, hK]
    exact le_rfl
  obtain ⟨n, hn, hrun⟩ := stepN_decInternal _ hp hlen (decOnTrack_init s.dec hs hK hB hG hO) hleft ha
  exact ⟨n, Nat.lt_succ_of_le hn, hrun⟩

/-! ## Executions are runs -/

/-- The first `n` moves of an execution, with any moves after them on the agenda. -/
theorem Execution.stepN {state : Nat → State} {move : Nat → Event} (hexec : Execution state move) (n : Nat)
    (later : List Event) :
    Machine.stepN n ((state 0).setAgenda ((List.range n).map move ++ later)) =
      .next ((state n).setAgenda later) := by
  induction n generalizing later with
  | zero => rfl
  | succ n ih =>
    have hrun := ih (move n :: later)
    rw [List.range_succ, List.map_append, List.append_assoc]
    have hstep : step ((state n).setAgenda (move n :: later)) = .next ((state (n + 1)).setAgenda later) :=
      (step_cons rfl).trans (runEvent_setAgenda (s := state n) later (hexec n))
    exact (stepN_succ_last hrun).trans hstep

/-- Settles O52, with no moves after the first `n`. -/
theorem finitePartsAreRuns : Obligations.FinitePartsAreRuns := by
  intro state move hexec n
  have hrun := hexec.stepN n []
  rwa [List.append_nil] at hrun

/-! ## Moves that are enabled, and the work they do -/

/-- The unit's move `e` is enabled (R17, R20, R22). -/
def Enabled (s : State) (u : UnitId) (e : Event) : Prop :=
  (phaseOf s u = .busy ∧ (e = .compute u ∨ e = .internal u)) ∨
    ((phaseOf s u = .idle ∧ hasOffer s u) ∧ e = .accept u) ∨ (phaseOf s u = .done ∧ e = .take u)

/-- The unit and its channel are the same in both states. -/
def sameUnit (s t : State) : UnitId → Prop
  | .enc => t.enc = s.enc ∧ t.encOffers = s.encOffers
  | .dec => t.dec = s.dec ∧ t.decOffers = s.decOffers

theorem sameUnit.phase {s t : State} {u : UnitId} (h : sameUnit s t u) : phaseOf t u = phaseOf s u := by
  cases u
  · exact congrArg EncUnit.phase h.1
  · exact congrArg DecUnit.phase h.1

theorem sameUnit.offer {s t : State} {u : UnitId} (h : sameUnit s t u) : hasOffer t u ↔ hasOffer s u := by
  cases u
  · exact (congrArg (· ≠ []) h.2).to_iff
  · exact (congrArg (· ≠ []) h.2).to_iff

theorem sameUnit.refl (s : State) (u : UnitId) : sameUnit s s u := by
  cases u <;> exact ⟨rfl, rfl⟩

theorem sameUnit.trans {s t r : State} {u : UnitId} (h : sameUnit s t u) (h' : sameUnit t r u) : sameUnit s r u := by
  cases u <;> exact ⟨h'.1.trans h.1, h'.2.trans h.2⟩

/-- A move of a unit that is not enabled does nothing. -/
theorem runEvent_waits {s : State} {u : UnitId} {e : Event} (hmove : isMoveOf u e) (he : ¬ Enabled s u e) :
    runEvent e s = .next s := by
  cases u
  · obtain rfl | rfl | rfl | rfl := hmove
    · by_cases hp : s.enc.phase = .idle
      · refine congrArg _ (acceptEnc_none ?_)
        by_contra ho
        exact he (.inr (.inl ⟨⟨hp, ho⟩, rfl⟩))
      · exact congrArg _ (acceptEnc_holds hp)
    · exact computeEnc_waits fun hp => he (.inl ⟨hp, .inl rfl⟩)
    · exact encInternal_waits fun hp => he (.inl ⟨hp, .inr rfl⟩)
    · exact congrArg _ (deliverEnc_waits fun hp => he (.inr (.inr ⟨hp, rfl⟩)))
  · obtain rfl | rfl | rfl | rfl := hmove
    · by_cases hp : s.dec.phase = .idle
      · refine congrArg _ (acceptDec_none ?_)
        by_contra ho
        exact he (.inr (.inl ⟨⟨hp, ho⟩, rfl⟩))
      · exact congrArg _ (acceptDec_holds hp)
    · exact computeDec_waits fun hp => he (.inl ⟨hp, .inl rfl⟩)
    · exact decInternal_waits fun hp => he (.inl ⟨hp, .inr rfl⟩)
    · exact congrArg _ (deliverDec_waits fun hp => he (.inr (.inr ⟨hp, rfl⟩)))

/-- A move of one unit leaves the other unit and its channel as they are (R15). -/
theorem sameUnit_of_other {s t : State} {e : Event} (h : runEvent e s = .next t) :
    (isMoveOf .dec e → sameUnit s t .enc) ∧ (isMoveOf .enc e → sameUnit s t .dec) := by
  refine ⟨fun hmove => ?_, fun hmove => ?_⟩
  · have hframe := (runEvent_decMove (.inr hmove) h s rfl).1
    have hunit := congrArg State.enc hframe
    have hchannel := congrArg State.encOffers hframe
    exact ⟨hunit, hchannel⟩
  · have hframe := (runEvent_encMove (.inr hmove) h s rfl).1
    have hunit := congrArg State.dec hframe
    have hchannel := congrArg State.decOffers hframe
    exact ⟨hunit, hchannel⟩

/-- Every move but an offer and a reset is a unit's. -/
theorem isMoveOf_enc_or_dec {e : Event} (hreset : e ≠ .reset) (hoffer : ∀ w, e ≠ .offer w) :
    isMoveOf .enc e ∨ isMoveOf .dec e := by
  cases e with
  | offer w => exact absurd rfl (hoffer w)
  | reset => exact absurd rfl hreset
  | accept u => cases u <;> simp [isMoveOf]
  | compute u => cases u <;> simp [isMoveOf]
  | internal u => cases u <;> simp [isMoveOf]
  | take u => cases u <;> simp [isMoveOf]

/-- Where no move of a unit is enabled, the unit and its channel stay as they are. -/
theorem sameUnit_of_not_enabled {s t : State} {u : UnitId} {e : Event} (h : runEvent e s = .next t)
    (hreset : e ≠ .reset) (hoffer : ∀ w, e ≠ .offer w) (he : ¬ Enabled s u e) : sameUnit s t u := by
  obtain ⟨hdec, henc⟩ := sameUnit_of_other h
  cases u
  · obtain hmove | hmove := isMoveOf_enc_or_dec hreset hoffer
    · cases (runEvent_waits hmove he).symm.trans h
      exact sameUnit.refl s .enc
    · exact hdec hmove
  · obtain hmove | hmove := isMoveOf_enc_or_dec hreset hoffer
    · exact henc hmove
    · cases (runEvent_waits hmove he).symm.trans h
      exact sameUnit.refl s .dec

/-- How many moves ENC has still to make at most for the request it holds. -/
def encPending (u : EncUnit) : Nat :=
  match u.phase with
  | .idle => 0
  | .busy => encLeft u + 2
  | .done => 1

/-- How many moves DEC has still to make at most for the request it holds. -/
def decPending (u : DecUnit) : Nat :=
  match u.phase with
  | .idle => 0
  | .busy => decLeft u + 2
  | .done => 1

/-- How many moves a unit has still to make at most, the requests on its channel included. -/
def work (s : State) : UnitId → Nat
  | .enc => (s.encOffers.map fun r => 8 * r.len + 3).sum + encPending s.enc
  | .dec => (s.decOffers.map fun r => r.len + 1 + 1 + r.len / 8 + 3).sum + decPending s.dec

/-- Every enabled move of ENC leaves it less to do. -/
theorem Inv.work_enc_lt {s t : State} {e : Event} (hinv : Inv s) (h : Machine.runEvent e s = .next t)
    (he : Enabled s .enc e) : work t .enc < work s .enc := by
  obtain ⟨hp, rfl | rfl⟩ | ⟨⟨hp, ho⟩, rfl⟩ | ⟨hp, rfl⟩ := he
  · change s.enc.phase = .busy at hp
    cases (computeEnc_eq hp (hinv.encBusy hp).1).symm.trans h
    refine Nat.add_lt_add_left ?_ _
    simp only [encPending, respondEnc_phase, hp]
    omega
  · change s.enc.phase = .busy at hp
    obtain hdone | ⟨u, hgo, hu, -, -, -, hless⟩ := hinv.encInternal_track hp
    · cases hdone.symm.trans h
      refine Nat.add_lt_add_left ?_ _
      simp only [encPending, respondEnc_phase, hp]
      omega
    · cases hgo.symm.trans h
      refine Nat.add_lt_add_left ?_ _
      simp only [encPending, State.setEnc_enc, hu, hp]
      omega
  · change s.enc.phase = .idle at hp
    obtain ⟨r, rest, ho⟩ := List.exists_cons_of_ne_nil ho
    cases (congrArg Host.Outcome.next (acceptEnc_idle hp ho)).symm.trans h
    simp only [work, encPending, hp, ho, takeEncRequest, encLeft, State.setEncLog_encOffers, State.setEnc_encOffers,
      State.setEncOffers_encOffers, State.setEncLog_enc, State.setEnc_enc, List.map_cons, List.sum_cons]
    omega
  · change s.enc.phase = .done at hp
    cases (congrArg Host.Outcome.next (deliverEnc_done hp)).symm.trans h
    refine Nat.add_lt_add_left ?_ _
    simp only [encPending, State.setEncLog_enc, State.setEnc_enc, hp]
    omega

/-- Every enabled move of DEC leaves it less to do. -/
theorem Inv.work_dec_lt {s t : State} {e : Event} (hinv : Inv s) (h : Machine.runEvent e s = .next t)
    (he : Enabled s .dec e) : work t .dec < work s .dec := by
  obtain ⟨hp, rfl | rfl⟩ | ⟨⟨hp, ho⟩, rfl⟩ | ⟨hp, rfl⟩ := he
  · change s.dec.phase = .busy at hp
    cases (computeDec_eq hp (hinv.decBusy hp).1).symm.trans h
    refine Nat.add_lt_add_left ?_ _
    simp only [decPending, respondDec_phase, hp]
    omega
  · change s.dec.phase = .busy at hp
    obtain hdone | ⟨u, hgo, hu, -, -, hless⟩ := hinv.decInternal_track hp
    · cases hdone.symm.trans h
      refine Nat.add_lt_add_left ?_ _
      simp only [decPending, respondDec_phase, hp]
      omega
    · cases hgo.symm.trans h
      refine Nat.add_lt_add_left ?_ _
      simp only [decPending, State.setDec_dec, hu, hp]
      omega
  · change s.dec.phase = .idle at hp
    obtain ⟨r, rest, ho⟩ := List.exists_cons_of_ne_nil ho
    cases (congrArg Host.Outcome.next (acceptDec_idle hp ho)).symm.trans h
    simp only [work, decPending, hp, ho, takeDecRequest, decLeft, State.setDecLog_decOffers, State.setDec_decOffers,
      State.setDecOffers_decOffers, State.setDecLog_dec, State.setDec_dec, List.map_cons, List.sum_cons]
    omega
  · change s.dec.phase = .done at hp
    cases (congrArg Host.Outcome.next (deliverDec_done hp)).symm.trans h
    refine Nat.add_lt_add_left ?_ _
    simp only [decPending, State.setDecLog_dec, State.setDec_dec, hp]
    omega

theorem Inv.work_lt {s t : State} {u : UnitId} {e : Event} (hinv : Inv s) (h : Machine.runEvent e s = .next t)
    (he : Enabled s u e) : work t u < work s u := by
  cases u
  · exact hinv.work_enc_lt h he
  · exact hinv.work_dec_lt h he

theorem sameUnit.work {s t : State} {u : UnitId} (h : sameUnit s t u) : Machine.work t u = Machine.work s u := by
  cases u
  · obtain ⟨hunit, hoffers⟩ := h
    simp only [Machine.work, hunit, hoffers]
  · obtain ⟨hunit, hoffers⟩ := h
    simp only [Machine.work, hunit, hoffers]

/-! ## Fair executions end what they serve -/

/-- A weakly fair execution through states that meet the invariant, with no offer and no reset from `last` on. -/
structure FairExecution (state : Nat → State) (move : Nat → Event) (last : Nat) : Prop where
  exec  : Execution state move
  inv   : ∀ n, Inv (state n)
  units : UnitsFair state move
  host  : HostFair state move
  quiet : ∀ n, last ≤ n → move n ≠ .reset ∧ ∀ w, move n ≠ .offer w

/-- Every state of an execution meets the invariant if the first does. -/
theorem Execution.inv {state : Nat → State} {move : Nat → Event} (hexec : Execution state move)
    (h0 : Inv (state 0)) (n : Nat) : Inv (state n) := by
  induction n with
  | zero => exact h0
  | succ n ih =>
    obtain ⟨t, ht, hinv⟩ | ⟨-, -, -, r, hr⟩ := ih.runEvent (move n)
    · cases (hexec n).symm.trans ht
      exact hinv
    · cases (hexec n).symm.trans hr

section
variable {state : Nat → State} {move : Nat → Event} {last : Nat}

theorem FairExecution.same_next (h : FairExecution state move last) {n : Nat} {u : UnitId} (hn : last ≤ n)
    (he : ¬ Enabled (state n) u (move n)) : sameUnit (state n) (state (n + 1)) u := by
  obtain ⟨hreset, hoffer⟩ := h.quiet n hn
  exact sameUnit_of_not_enabled (h.exec n) hreset hoffer he

/-- A unit none of whose moves is enabled when it is made stays as it is. -/
theorem FairExecution.same_from (h : FairExecution state move last) {n : Nat} {u : UnitId} (hn : last ≤ n)
    (he : ∀ m, n ≤ m → ¬ Enabled (state m) u (move m)) (m : Nat) (hm : n ≤ m) : sameUnit (state n) (state m) u := by
  induction m, hm using Nat.le_induction with
  | base => exact sameUnit.refl _ u
  | succ m hm ih => exact ih.trans (h.same_next (hn.trans hm) (he m hm))

/-- A unit with something to do makes an enabled move (R141). -/
theorem FairExecution.enabled_or_served (h : FairExecution state move last) {n : Nat} (u : UnitId) (hn : last ≤ n) :
    (∃ m, n ≤ m ∧ Enabled (state m) u (move m)) ∨ (phaseOf (state n) u = .idle ∧ ¬ hasOffer (state n) u) := by
  by_contra hnot
  obtain ⟨hnone, hwork⟩ := not_or.1 hnot
  have he : ∀ m, n ≤ m → ¬ Enabled (state m) u (move m) := fun m hm hen => hnone ⟨m, hm, hen⟩
  have hsame := h.same_from hn he
  obtain ⟨hacceptFair, htakeFair⟩ := h.host u
  cases hp : phaseOf (state n) u with
  | idle =>
    have ho : hasOffer (state n) u := by
      by_contra ho
      exact hwork ⟨hp, ho⟩
    have hstays := fun m hm => And.intro ((hsame m hm).phase.trans hp) ((hsame m hm).offer.2 ho)
    obtain ⟨m, hm, hmade⟩ := hacceptFair n hstays
    exact he m hm (.inr (.inl ⟨hstays m hm, hmade⟩))
  | busy =>
    have hstays := fun m hm => (hsame m hm).phase.trans hp
    obtain ⟨m, hm, hmade⟩ := h.units u n hstays
    exact he m hm (.inl ⟨hstays m hm, hmade⟩)
  | done =>
    have hstays := fun m hm => (hsame m hm).phase.trans hp
    obtain ⟨m, hm, hmade⟩ := htakeFair n hstays
    exact he m hm (.inr (.inr ⟨hstays m hm, hmade⟩))

/-- With no further offer the work of a unit never grows. -/
theorem FairExecution.work_le (h : FairExecution state move last) {n : Nat} (u : UnitId) (hn : last ≤ n) (m : Nat)
    (hm : n ≤ m) : work (state m) u ≤ work (state n) u := by
  induction m, hm using Nat.le_induction with
  | base => exact le_rfl
  | succ m hm ih =>
    by_cases he : Enabled (state m) u (move m)
    · exact ((h.inv m).work_lt (h.exec m) he).le.trans ih
    · exact (h.same_next (hn.trans hm) he).work.le.trans ih

/-- A unit gets served: each enabled move leaves less work (`Inv.work_lt`), and there is one as long as work is left. -/
theorem FairExecution.exists_served (h : FairExecution state move last) (u : UnitId) (k n : Nat) (hn : last ≤ n)
    (hk : work (state n) u ≤ k) : ∃ m, n ≤ m ∧ phaseOf (state m) u = .idle ∧ ¬ hasOffer (state m) u := by
  induction k generalizing n with
  | zero =>
    obtain ⟨m, hm, hen⟩ | hserved := h.enabled_or_served u hn
    · have hless := (h.inv m).work_lt (h.exec m) hen
      have hle := h.work_le u hn m hm
      omega
    · exact ⟨n, le_rfl, hserved⟩
  | succ k ih =>
    obtain ⟨m, hm, hen⟩ | hserved := h.enabled_or_served u hn
    · have hless := (h.inv m).work_lt (h.exec m) hen
      have hle := h.work_le u hn m hm
      obtain ⟨m', hm', hserved⟩ := ih (m + 1) (by omega) (by omega)
      exact ⟨m', by omega, hserved⟩
    · exact ⟨n, le_rfl, hserved⟩

/-- A served unit stays served: none of its moves is enabled. -/
theorem FairExecution.stays_served (h : FairExecution state move last) {m : Nat} {u : UnitId} (hm : last ≤ m)
    (hs : phaseOf (state m) u = .idle ∧ ¬ hasOffer (state m) u) (n : Nat) (hn : m ≤ n) :
    phaseOf (state n) u = .idle ∧ ¬ hasOffer (state n) u := by
  induction n, hn using Nat.le_induction with
  | base => exact hs
  | succ n hn ih =>
    obtain ⟨hp, ho⟩ := ih
    have he : ¬ Enabled (state n) u (move n) := by
      rintro (⟨hb, -⟩ | ⟨⟨-, ho'⟩, -⟩ | ⟨hd, -⟩)
      · cases hp.symm.trans hb
      · exact ho ho'
      · cases hp.symm.trans hd
    have hsame := h.same_next (hm.trans hn) he
    exact ⟨hsame.phase.trans hp, mt hsame.offer.1 ho⟩

/-- From some time on a unit is served. -/
theorem FairExecution.eventually_served (h : FairExecution state move last) (u : UnitId) :
    ∃ m, last ≤ m ∧ ∀ n, m ≤ n → phaseOf (state n) u = .idle ∧ ¬ hasOffer (state n) u := by
  obtain ⟨m, hm, hserved⟩ := h.exists_served u _ last le_rfl le_rfl
  exact ⟨m, hm, h.stays_served hm hserved⟩

end

/-- Settles O54: each unit is served from some time on, so both are from the later of the two. -/
theorem hostProgramsTerminate : Obligations.HostProgramsTerminate := by
  intro state move last hexec h0 hunits hhost hquiet
  have h : FairExecution state move last := ⟨hexec, hexec.inv h0, hunits, hhost, hquiet⟩
  obtain ⟨mE, hmE, hservedE⟩ := h.eventually_served .enc
  obtain ⟨mD, -, hservedD⟩ := h.eventually_served .dec
  refine ⟨max mE mD, hmE.trans (le_max_left _ _), fun n hn => ?_⟩
  obtain ⟨hpE, hoE⟩ := hservedE n ((le_max_left _ _).trans hn)
  obtain ⟨hpD, hoD⟩ := hservedD n ((le_max_right _ _).trans hn)
  exact ⟨hpE, not_not.1 hoE, hpD, not_not.1 hoD⟩

/-! ## The block goes on by itself -/

/-- How many of the block's own moves a unit has left: it computes where it is BUSY, and accepts and computes
where it is IDLE with an offer standing. -/
def Ledger.ownLeft {α β : Type} (l : Ledger α β) : Nat :=
  match l.phase, l.offers with
  | .busy, _ => 1
  | .idle, _ :: _ => 2
  | _, _ => 0

theorem Ledger.ownLeft_le {α β : Type} (l : Ledger α β) : l.ownLeft ≤ 2 := by
  unfold Ledger.ownLeft
  split <;> decide

/-- A unit has no own move left exactly when it is not BUSY, and has no offer standing where it is IDLE. -/
theorem Ledger.ownLeft_eq_zero_iff {α β : Type} (l : Ledger α β) :
    l.ownLeft = 0 ↔ l.phase ≠ .busy ∧ (l.phase = .idle → l.offers = []) := by
  obtain ⟨phase, offers, log⟩ := l
  cases phase with
  | busy => simp [Ledger.ownLeft]
  | done => simp [Ledger.ownLeft]
  | idle => cases offers <;> simp [Ledger.ownLeft]

theorem Ledger.ownLeft_busy {α β : Type} {l : Ledger α β} (h : l.phase = .busy) : l.ownLeft = 1 := by
  rw [Ledger.ownLeft, h]

theorem Ledger.ownLeft_offered {α β : Type} {l : Ledger α β} {r : α} {rest : List α} (h : l.phase = .idle)
    (ho : l.offers = r :: rest) : l.ownLeft = 2 := by
  rw [Ledger.ownLeft, h, ho]

/-- ENC answers `p` to the request it holds: it has the response, or computes it. -/
def encOwes (p : EncResponse) (s : State) : Prop :=
  (s.enc.phase = .busy ∧ encodeOp s.enc.req = p) ∨ (s.enc.phase = .done ∧ s.enc.resp = p)

/-- DEC answers `p` to the request it holds: it has the response, or computes it. -/
def decOwes (p : DecResponse) (s : State) : Prop :=
  (s.dec.phase = .busy ∧ decodeOp s.dec.req = p) ∨ (s.dec.phase = .done ∧ s.dec.resp = p)

/-- What the block's own moves from `s` to `t` keep: the agenda stays empty, and each unit owes what it owed. -/
structure OwnRun (s t : State) : Prop where
  inv    : Inv t
  agenda : t.agenda = []
  enc    : ∀ p, encOwes p s → encOwes p t
  dec    : ∀ p, decOwes p s → decOwes p t

theorem OwnRun.trans {s t r : State} (h : OwnRun s t) (h' : OwnRun t r) : OwnRun s r :=
  ⟨h'.inv, h'.agenda, fun p hp => h'.enc p (h.enc p hp), fun p hp => h'.dec p (h.dec p hp)⟩

/-- How many own moves the block has left. -/
def ownLeft (s : State) : Nat := (encLedger s).ownLeft + (decLedger s).ownLeft

theorem encOwes_idle {p : EncResponse} {s : State} (hp : s.enc.phase = .idle) : ¬ encOwes p s := by
  rintro (⟨hb, -⟩ | ⟨hd, -⟩)
  · cases hp.symm.trans hb
  · cases hp.symm.trans hd

theorem decOwes_idle {p : DecResponse} {s : State} (hp : s.dec.phase = .idle) : ¬ decOwes p s := by
  rintro (⟨hb, -⟩ | ⟨hd, -⟩)
  · cases hp.symm.trans hb
  · cases hp.symm.trans hd

/-- A compute step pays what ENC owes. -/
theorem encOwes_respond {p : EncResponse} {s : State} (hp : s.enc.phase = .busy) (h : encOwes p s) :
    encOwes p (respondEnc (encodeOp s.enc.req) s) := by
  obtain ⟨-, h⟩ | ⟨hd, -⟩ := h
  · exact .inr ⟨rfl, h⟩
  · cases hp.symm.trans hd

/-- A compute step pays what DEC owes. -/
theorem decOwes_respond {p : DecResponse} {s : State} (hp : s.dec.phase = .busy) (h : decOwes p s) :
    decOwes p (respondDec (decodeOp s.dec.req) s) := by
  obtain ⟨-, h⟩ | ⟨hd, -⟩ := h
  · exact .inr ⟨rfl, h⟩
  · cases hp.symm.trans hd

/-- With nothing on the agenda a step makes one of the block's own moves, or none is left (R23, R132). -/
theorem Inv.ownStep {s : State} (hinv : Inv s) (ha : s.agenda = []) :
    ∃ t, Machine.step s = .next t ∧ OwnRun s t ∧ (ownLeft t < ownLeft s ∨ ownLeft t = 0) := by
  by_cases hE : s.enc.phase = .busy
  · have hown : ownMove s = some (.compute .enc) := if_pos hE
    refine ⟨_, (step_own ha hown).trans (computeEnc_eq hE (hinv.encBusy hE).1),
      ⟨hinv.respondEnc hE rfl, ha, fun p => encOwes_respond hE, fun p => id⟩, .inl ?_⟩
    have hbefore : (encLedger s).ownLeft = 1 := Ledger.ownLeft_busy hE
    exact Nat.add_lt_add_right (hbefore.symm ▸ Nat.one_pos) _
  by_cases hD : s.dec.phase = .busy
  · have hown : ownMove s = some (.compute .dec) := (if_neg hE).trans (if_pos hD)
    refine ⟨_, (step_own ha hown).trans (computeDec_eq hD (hinv.decBusy hD).1),
      ⟨hinv.respondDec hD rfl, ha, fun p => id, fun p => decOwes_respond hD⟩, .inl ?_⟩
    have hbefore : (decLedger s).ownLeft = 1 := Ledger.ownLeft_busy hD
    exact Nat.add_lt_add_left (hbefore.symm ▸ Nat.one_pos) _
  by_cases hoE : s.enc.phase = .idle ∧ s.encOffers ≠ []
  · have hown : ownMove s = some (.accept .enc) := (if_neg hE).trans ((if_neg hD).trans (if_pos hoE))
    obtain ⟨hp, hne⟩ := hoE
    obtain ⟨r, rest, ho⟩ := List.exists_cons_of_ne_nil hne
    refine ⟨_, step_own ha hown, ⟨hinv.acceptEnc, ?_, fun p h => absurd h (encOwes_idle hp), fun p h => ?_⟩, .inl ?_⟩
    · rw [acceptEnc_idle hp ho]
      exact ha
    · rw [acceptEnc_idle hp ho]
      exact h
    · have hbefore : (encLedger s).ownLeft = 2 := Ledger.ownLeft_offered hp ho
      rw [acceptEnc_idle hp ho]
      exact Nat.add_lt_add_right (hbefore.symm ▸ Nat.one_lt_two) _
  by_cases hoD : s.dec.phase = .idle ∧ s.decOffers ≠ []
  · have hown : ownMove s = some (.accept .dec) :=
      (if_neg hE).trans ((if_neg hD).trans ((if_neg hoE).trans (if_pos hoD)))
    obtain ⟨hp, hne⟩ := hoD
    obtain ⟨r, rest, ho⟩ := List.exists_cons_of_ne_nil hne
    refine ⟨_, step_own ha hown, ⟨hinv.acceptDec, ?_, fun p h => ?_, fun p h => absurd h (decOwes_idle hp)⟩, .inl ?_⟩
    · rw [acceptDec_idle hp ho]
      exact ha
    · rw [acceptDec_idle hp ho]
      exact h
    · have hbefore : (decLedger s).ownLeft = 2 := Ledger.ownLeft_offered hp ho
      rw [acceptDec_idle hp ho]
      exact Nat.add_lt_add_left (hbefore.symm ▸ Nat.one_lt_two) _
  · have hown : ownMove s = none := (if_neg hE).trans ((if_neg hD).trans ((if_neg hoE).trans (if_neg hoD)))
    have hnone : nextMove s = none := by rw [nextMove_nil ha, hown]; rfl
    have hleftE : (encLedger s).ownLeft = 0 :=
      (Ledger.ownLeft_eq_zero_iff _).2 ⟨hE, fun hp => not_not.1 fun ho => hoE ⟨hp, ho⟩⟩
    have hleftD : (decLedger s).ownLeft = 0 :=
      (Ledger.ownLeft_eq_zero_iff _).2 ⟨hD, fun hp => not_not.1 fun ho => hoD ⟨hp, ho⟩⟩
    exact ⟨s, step_waits hnone, ⟨hinv, ha, fun _ => id, fun _ => id⟩, .inr (by rw [ownLeft, hleftE, hleftD])⟩

/-- As many steps as own moves are left, or more, leave none. -/
theorem Inv.ownRun (k : Nat) {s : State} (hinv : Inv s) (ha : s.agenda = []) (hk : ownLeft s ≤ k) :
    ∃ t, stepN k s = .next t ∧ OwnRun s t ∧ ownLeft t = 0 := by
  induction k generalizing s with
  | zero => exact ⟨s, rfl, ⟨hinv, ha, fun _ => id, fun _ => id⟩, Nat.le_zero.1 hk⟩
  | succ k ih =>
    obtain ⟨u, hstep, hfirst, hless⟩ := hinv.ownStep ha
    obtain ⟨t, hrun, hlater, hleft⟩ := ih hfirst.inv hfirst.agenda (by omega)
    exact ⟨t, (stepN_succ_of_step hstep k).trans hrun, hfirst.trans hlater, hleft⟩

/-- Settles O55: each unit has at most two own moves left, and a unit that owed its response and is not BUSY has it. -/
theorem blockGoesOnByItself : Obligations.BlockGoesOnByItself := by
  intro s hinv ha
  have hfour : ownLeft s ≤ 4 := Nat.add_le_add (Ledger.ownLeft_le _) (Ledger.ownLeft_le _)
  obtain ⟨t, hrun, hown, hleft⟩ := hinv.ownRun 4 ha hfour
  obtain ⟨hleftE, hleftD⟩ := Nat.add_eq_zero_iff.1 hleft
  obtain ⟨hbusyE, hidleE⟩ := (Ledger.ownLeft_eq_zero_iff _).1 hleftE
  obtain ⟨hbusyD, hidleD⟩ := (Ledger.ownLeft_eq_zero_iff _).1 hleftD
  refine ⟨t, hrun, hbusyE, hbusyD, hidleE, hidleD, fun hp => ?_, fun hp => ?_⟩
  · obtain ⟨hb, -⟩ | ⟨-, hresp⟩ := hown.enc _ (.inl ⟨hp, rfl⟩)
    · exact absurd hb hbusyE
    · exact hresp
  · obtain ⟨hb, -⟩ | ⟨-, hresp⟩ := hown.dec _ (.inl ⟨hp, rfl⟩)
    · exact absurd hb hbusyD
    · exact hresp

end Sys2Proof.Machine
end
